-- ==== Sys2Proof/Word.lean ====
section
/-! DEFINITION. The word types of the hardware (00_scope.md R8: every value is unsigned). -/

namespace Sys2Proof

/-- A byte of a message, of a block, of a digest or of `MEM`. -/
abbrev Byte := BitVec 8

/-- A 32-bit state word, schedule word or round constant (R5 `WORD`). -/
abbrev Word := BitVec 32

/-- A command word (30_encoding.md R45, `CMDBITS` = 64). -/
abbrev CmdWord := BitVec 64

/-- A block and the pending buffer: 64 bytes, byte 0 absorbed first (R5 `BLOCK`). -/
abbrev Block := Vector Byte 64

end Sys2Proof
end

