-- ==== Sys2Proof/Syntax.lean ====
section
/-! DEFINITION. The commands of the hardware, one constructor per row of spec/opcode_table.json, with the operands
of 30_encoding.md R47 and R49. -/

namespace Sys2Proof

/-- The two engines (00_scope.md R2, 30_encoding.md R51). -/
inductive Engine where
  /-- engine number 0, the 128-bit engine -/
  | e128
  /-- engine number 1, the 256-bit engine -/
  | e256
  deriving DecidableEq, Repr

/-- `NW(e)`: the number of state words (R5). -/
abbrev Engine.nw : Engine → Nat
  | .e128 => 4
  | .e256 => 8

/-- The other engine. -/
abbrev Engine.other : Engine → Engine
  | .e128 => .e256
  | .e256 => .e128

/-- The seven commands (R47). Every operand is the unsigned value of its field (R49). -/
inductive Instr where
  /-- `INIT e` (R62) -/
  | init (e : Engine)
  /-- `ADD e, off, len` (R82) -/
  | add (e : Engine) (off len : BitVec 24)
  /-- `ADDI e, imm8` (R83) -/
  | addi (e : Engine) (imm8 : Byte)
  /-- `FIN e` (R124) -/
  | fin (e : Engine)
  /-- `GETB e, dst` (R125) -/
  | getb (e : Engine) (dst : BitVec 24)
  /-- `GETH e, dst` (R126) -/
  | geth (e : Engine) (dst : BitVec 24)
  /-- `RDSR e, sel` (R63) -/
  | rdsr (e : Engine) (sel : BitVec 8)
  deriving DecidableEq, Repr

/-- The engine a command names (R51: every command names exactly one). -/
abbrev Instr.engine : Instr → Engine
  | .init e => e
  | .add e _ _ => e
  | .addi e _ => e
  | .fin e => e
  | .getb e _ => e
  | .geth e _ => e
  | .rdsr e _ => e

end Sys2Proof
end

