-- ==== Sys2Proof/Machine/Selectors.lean ====
section
/-! DEFINITION. The selector numbers of the status registers (10_state.md R19) and which of them an engine has
(30_encoding.md R50, `LegalSel`). -/

namespace Sys2Proof.Machine

/-- `STATUS` (R19). -/
def selStatus : BitVec 8 := 0x00

/-- `LEN` (R19). -/
def selLen : BitVec 8 := 0x01

/-- `H0`; `H<i>` is `0x10 + i` (R19). -/
def selH0 : BitVec 8 := 0x10

/-- `sel` names a state word of engine `e`: `0x10 ≤ sel ≤ 0x10 + NW(e) − 1`. -/
def isStateWordSel (e : Engine) (sel : BitVec 8) : Bool :=
  decide (selH0.toNat ≤ sel.toNat ∧ sel.toNat < selH0.toNat + e.nw)

/-- `LegalSel(e, sel)` of R50. -/
def legalSel (e : Engine) (sel : BitVec 8) : Bool :=
  sel == selStatus || sel == selLen || isStateWordSel e sel

end Sys2Proof.Machine
end

