-- ==== Sys2Proof/WellFormed.lean ====
section
/-! DEFINITION. Which terms of `Instr` are commands of the hardware. Every operand but `sel` may have every value
its field can hold (30_encoding.md R49, R52: `ADD` has no illegal operand values); `sel` must be legal for the
engine named (R50). -/

namespace Sys2Proof

/-- The command exists: the only check is `LegalSel(e, sel)` of `RDSR` (R50, R52 item 5). -/
def Instr.wellFormed : Instr → Bool
  | .init _ => true
  | .add _ _ _ => true
  | .addi _ _ => true
  | .fin _ => true
  | .getb _ _ => true
  | .geth _ _ => true
  | .rdsr e sel => Machine.legalSel e sel

end Sys2Proof
end

