-- ==== Sys2Proof/Decode.lean ====
section
/-! DEFINITION. The decoder of command words (30_encoding.md R45 to R52), total and rejecting by name, and after
it the encoder (R45's formula with `Z = 0` and the unused fields 0). -/

namespace Sys2Proof

/-- Why a word is `Illegal`: the classes of R52. All of them become the one error `IllegalCommand` (R139). -/
inductive Reject where
  /-- R52 item 1: `Z ≠ 0` -/
  | nonzeroZ
  /-- R52 item 2: `OP = 0x00` or `OP` in `0x08 .. 0xFF` -/
  | unknownOpcode
  /-- R52 items 3 to 6: a field that must be zero is not -/
  | unusedFieldSet
  /-- R52 item 5: a selector the engine named lacks -/
  | illegalSelector
  deriving DecidableEq, Repr

/-- `OP`, bits 63:56 (R45). -/
def fieldOP (w : CmdWord) : BitVec 8 := w.extractLsb' 56 8

/-- `E`, bit 55 (R45). -/
def fieldE (w : CmdWord) : BitVec 1 := w.extractLsb' 55 1

/-- `Z`, bits 54:48 (R45). -/
def fieldZ (w : CmdWord) : BitVec 7 := w.extractLsb' 48 7

/-- `A`, bits 47:24 (R45). -/
def fieldA (w : CmdWord) : BitVec 24 := w.extractLsb' 24 24

/-- `B`, bits 23:0 (R45). -/
def fieldB (w : CmdWord) : BitVec 24 := w.extractLsb' 0 24

/-- `B[23:8]` (R48, formats I and S). -/
def fieldBhi (w : CmdWord) : BitVec 16 := w.extractLsb' 8 16

/-- `B[7:0]`: `imm8` or `sel` (R49). -/
def fieldBlo (w : CmdWord) : BitVec 8 := w.extractLsb' 0 8

/-- The engine the `E` bit selects (R51). -/
def engineOf (w : CmdWord) : Engine :=
  if fieldE w = 0 then .e128 else .e256

/-- An operand form whose unused fields must be zero. -/
def guardZero (zero : Bool) (i : Instr) : Except Reject Instr :=
  if zero then .ok i else .error .unusedFieldSet

/-- `RDSR`: the unused fields are zero and the selector is legal for the engine (R50). -/
def decodeRdsr (w : CmdWord) : Except Reject Instr :=
  if fieldA w = 0 ∧ fieldBhi w = 0 then
    if Machine.legalSel (engineOf w) (fieldBlo w) then .ok (.rdsr (engineOf w) (fieldBlo w))
    else .error .illegalSelector
  else .error .unusedFieldSet

/-- `Decode(cmd)` of R50: a total function of the word alone. -/
def decode (w : CmdWord) : Except Reject Instr :=
  if fieldZ w ≠ 0 then .error .nonzeroZ
  else if fieldOP w = 0x01 then guardZero (fieldA w == 0 && fieldB w == 0) (.init (engineOf w))
  else if fieldOP w = 0x02 then .ok (.add (engineOf w) (fieldA w) (fieldB w))
  else if fieldOP w = 0x03 then
    guardZero (fieldA w == 0 && fieldBhi w == 0) (.addi (engineOf w) (fieldBlo w))
  else if fieldOP w = 0x04 then guardZero (fieldA w == 0 && fieldB w == 0) (.fin (engineOf w))
  else if fieldOP w = 0x05 then guardZero (fieldB w == 0) (.getb (engineOf w) (fieldA w))
  else if fieldOP w = 0x06 then guardZero (fieldB w == 0) (.geth (engineOf w) (fieldA w))
  else if fieldOP w = 0x07 then decodeRdsr w
  else .error .unknownOpcode

/-- The instruction read from a word of spec/opcode_table.json, bit 0 least significant; bits at and above `nbits`
are 0. A command is one word of 64 bits (R45): a word that needs more is no command. -/
def decodeTableWord (nbits w : Nat) : Option Instr :=
  if w % 2 ^ nbits < 2 ^ 64 then
    match decode (BitVec.ofNat 64 (w % 2 ^ nbits)) with
    | .ok i => some i
    | .error _ => none
  else none

/-- The opcode of a command (R47). -/
def opcodeOf : Instr → BitVec 8
  | .init _ => 0x01
  | .add _ _ _ => 0x02
  | .addi _ _ => 0x03
  | .fin _ => 0x04
  | .getb _ _ => 0x05
  | .geth _ _ => 0x06
  | .rdsr _ _ => 0x07

/-- The `E` bit of an engine (R51). -/
def engineBit : Engine → BitVec 1
  | .e128 => 0
  | .e256 => 1

/-- The `A` field of a command (R48). -/
def operandA : Instr → BitVec 24
  | .init _ => 0
  | .add _ off _ => off
  | .addi _ _ => 0
  | .fin _ => 0
  | .getb _ dst => dst
  | .geth _ dst => dst
  | .rdsr _ _ => 0

/-- The `B` field of a command (R48). -/
def operandB : Instr → BitVec 24
  | .init _ => 0
  | .add _ _ len => len
  | .addi _ imm8 => imm8.zeroExtend 24
  | .fin _ => 0
  | .getb _ _ => 0
  | .geth _ _ => 0
  | .rdsr _ sel => sel.zeroExtend 24

/-- `cmd = OP × 2^56 + E × 2^55 + Z × 2^48 + A × 2^24 + B` with `Z = 0` (R45): the one word of a command (R50). -/
def encode (i : Instr) : CmdWord :=
  opcodeOf i ++ engineBit i.engine ++ (0 : BitVec 7) ++ operandA i ++ operandB i

end Sys2Proof
end

