-- ==== Sys2Proof/Config.lean ====
section
/-! DEFINITION. What an implementation fixes: the one open parameter of the spec, `MEM_BYTES`
(00_scope.md R5, 92_eei_decisions.md D5), and the one value the spec leaves free: which bytes a reset that cuts a
command short has let through (70_reset_and_hazards.md R157). No command goes on from an unspecified value. -/

namespace Sys2Proof

/-- `MEM_BYTES` of the machine right after reset. DESIGN CHOICE (log 3): R5 leaves it open in `1 .. 2^24`; this is
the value all the vectors of 95_test_vectors.md use. `State.memBytes` carries it, so that every statement about
every state holds for every `MEM_BYTES`. -/
def Config.memBytes : Nat := 0x10000

/-- The greatest `MEM_BYTES` the spec allows, `2^24` (R5, R30). -/
def Config.maxMemBytes : Nat := 2 ^ 24

/-- FREE VALUE (R157; log 7): at the `n`-th reset that cuts a command short, whether the byte at address `a` of the
command's destination had been written. Nothing is known of it. -/
opaque Config.resetTookByte : (n a : Nat) → Bool

end Sys2Proof
end

