-- ==== Sys2Proof/Machine/Bits.lean ====
section
/-! DEFINITION. The word operations and the byte-order helpers of 00_scope.md R8. -/

namespace Sys2Proof.Machine

/-- `ROTL32(x, n)` for `0 < n < 32` (R8). -/
def rotl32 (x : Word) (n : Nat) : Word := (x <<< n) ||| (x >>> (32 - n))

/-- `ROTR32(x, n) = ROTL32(x, 32 − n)` for `0 < n < 32` (R8). -/
def rotr32 (x : Word) (n : Nat) : Word := rotl32 x (32 - n)

/-- `SHR32(x, n)`: logical right shift (R8). -/
def shr32 (x : Word) (n : Nat) : Word := x >>> n

/-- `LE32(b0, b1, b2, b3)`: low-order byte first (R8). -/
def le32 (b0 b1 b2 b3 : Byte) : Word := b3 ++ b2 ++ b1 ++ b0

/-- `BE32(b0, b1, b2, b3)`: high-order byte first (R8). -/
def be32 (b0 b1 b2 b3 : Byte) : Word := b0 ++ b1 ++ b2 ++ b3

/-- Byte `i` of a value, byte 0 the least significant: `v[8i + 7 : 8i]` (R8). -/
def byteOf {w : Nat} (v : BitVec w) (i : Nat) : Byte := v.extractLsb' (8 * i) 8

end Sys2Proof.Machine
end

