-- ==== Sys2Proof/Machine/Constants.lean ====
section
/-! DEFINITION. The fixed tables of the hardware: initial state words (10_state.md R23), round constants and
rotate amounts (44_hash_compressor_128bit.md R101, R102; 45_hash_compressor_256bit.md R112). -/

namespace Sys2Proof.Machine

/-- `IV128` (R23). -/
def iv128 : Vector Word 4 := #v[0x67452301, 0xEFCDAB89, 0x98BADCFE, 0x10325476]

/-- `IV256` (R23). -/
def iv256 : Vector Word 8 :=
  #v[0x6A09E667, 0xBB67AE85, 0x3C6EF372, 0xA54FF53A, 0x510E527F, 0x9B05688C, 0x1F83D9AB, 0x5BE0CD19]

/-- `IV(e)` (R23). -/
def iv : (e : Engine) → Vector Word e.nw
  | .e128 => iv128
  | .e256 => iv256

/-- `K128[0 .. 15]` (R101). -/
def k128Group0 : Vector Word 16 :=
  #v[0xD76AA478, 0xE8C7B756, 0x242070DB, 0xC1BDCEEE,
    0xF57C0FAF, 0x4787C62A, 0xA8304613, 0xFD469501,
    0x698098D8, 0x8B44F7AF, 0xFFFF5BB1, 0x895CD7BE,
    0x6B901122, 0xFD987193, 0xA679438E, 0x49B40821]

/-- `K128[16 .. 31]` (R101). -/
def k128Group1 : Vector Word 16 :=
  #v[0xF61E2562, 0xC040B340, 0x265E5A51, 0xE9B6C7AA,
    0xD62F105D, 0x02441453, 0xD8A1E681, 0xE7D3FBC8,
    0x21E1CDE6, 0xC33707D6, 0xF4D50D87, 0x455A14ED,
    0xA9E3E905, 0xFCEFA3F8, 0x676F02D9, 0x8D2A4C8A]

/-- `K128[32 .. 47]` (R101). -/
def k128Group2 : Vector Word 16 :=
  #v[0xFFFA3942, 0x8771F681, 0x6D9D6122, 0xFDE5380C,
    0xA4BEEA44, 0x4BDECFA9, 0xF6BB4B60, 0xBEBFBC70,
    0x289B7EC6, 0xEAA127FA, 0xD4EF3085, 0x04881D05,
    0xD9D4D039, 0xE6DB99E5, 0x1FA27CF8, 0xC4AC5665]

/-- `K128[48 .. 63]` (R101). -/
def k128Group3 : Vector Word 16 :=
  #v[0xF4292244, 0x432AFF97, 0xAB9423A7, 0xFC93A039,
    0x655B59C3, 0x8F0CCC92, 0xFFEFF47D, 0x85845DD1,
    0x6FA87E4F, 0xFE2CE6E0, 0xA3014314, 0x4E0811A1,
    0xF7537E82, 0xBD3AF235, 0x2AD7D2BB, 0xEB86D391]

/-- `K128[0 .. 63]` (R101). -/
def k128 : Vector Word 64 := k128Group0 ++ k128Group1 ++ k128Group2 ++ k128Group3

/-- `K256[0 .. 15]` (R112). -/
def k256Group0 : Vector Word 16 :=
  #v[0x428A2F98, 0x71374491, 0xB5C0FBCF, 0xE9B5DBA5,
    0x3956C25B, 0x59F111F1, 0x923F82A4, 0xAB1C5ED5,
    0xD807AA98, 0x12835B01, 0x243185BE, 0x550C7DC3,
    0x72BE5D74, 0x80DEB1FE, 0x9BDC06A7, 0xC19BF174]

/-- `K256[16 .. 31]` (R112). -/
def k256Group1 : Vector Word 16 :=
  #v[0xE49B69C1, 0xEFBE4786, 0x0FC19DC6, 0x240CA1CC,
    0x2DE92C6F, 0x4A7484AA, 0x5CB0A9DC, 0x76F988DA,
    0x983E5152, 0xA831C66D, 0xB00327C8, 0xBF597FC7,
    0xC6E00BF3, 0xD5A79147, 0x06CA6351, 0x14292967]

/-- `K256[32 .. 47]` (R112). -/
def k256Group2 : Vector Word 16 :=
  #v[0x27B70A85, 0x2E1B2138, 0x4D2C6DFC, 0x53380D13,
    0x650A7354, 0x766A0ABB, 0x81C2C92E, 0x92722C85,
    0xA2BFE8A1, 0xA81A664B, 0xC24B8B70, 0xC76C51A3,
    0xD192E819, 0xD6990624, 0xF40E3585, 0x106AA070]

/-- `K256[48 .. 63]` (R112). -/
def k256Group3 : Vector Word 16 :=
  #v[0x19A4C116, 0x1E376C08, 0x2748774C, 0x34B0BCB5,
    0x391C0CB3, 0x4ED8AA4A, 0x5B9CCA4F, 0x682E6FF3,
    0x748F82EE, 0x78A5636F, 0x84C87814, 0x8CC70208,
    0x90BEFFFA, 0xA4506CEB, 0xBEF9A3F7, 0xC67178F2]

/-- `K256[0 .. 63]` (R112). -/
def k256 : Vector Word 64 := k256Group0 ++ k256Group1 ++ k256Group2 ++ k256Group3

/-- The four rotate amounts of each of the four round groups (R102). -/
def s128Rows : Vector (Vector Nat 4) 4 :=
  #v[#v[7, 12, 17, 22], #v[5, 9, 14, 20], #v[4, 11, 16, 23], #v[6, 10, 15, 21]]

/-- `S128[i] = row(floor(i / 16))[i mod 4]` (R102). -/
def s128 (i : Fin 64) : Nat :=
  (s128Rows[i.val / 16]'(by omega))[i.val % 4]'(by omega)

end Sys2Proof.Machine
end

