-- ==== Sys2Proof/Machine/State.lean ====
section
/-! DEFINITION. The state of the machine, as plain data: for each engine the seven elements of 10_state.md R10, the
memory `MEM` (20_memory.md R30) with its size `MEM_BYTES`, and the host's side of the interface (00_scope.md R6,
70_reset_and_hazards.md R167): what the host does next and what it has got back. -/

namespace Sys2Proof.Machine

/-- One engine with `nw` state words (R10). The engines have separate copies of every element. -/
structure EngineState (nw : Nat) where
  /-- `H[e]`, the state words (R11) -/
  h : Vector Word nw
  /-- `BUF[e]`, the pending block buffer (R13) -/
  buf : Block
  /-- `OFF[e]`, the 7-bit fill offset (R14) -/
  off : BitVec 7
  /-- `LEN[e]`, the 64-bit bit-length counter (R15) -/
  len : BitVec 64
  /-- `CLOSED[e]` (R16) -/
  closed : Bool
  /-- `FAULT[e]` (R17) -/
  fault : Bool
  /-- `DIGEST[e]`, the cached digest, `DB(e) = 4 × NW(e)` bytes (R18, R5) -/
  digest : Vector Byte (4 * nw)
  deriving DecidableEq, Repr

/-- What the host may do, one at a time, each between two commands or a command itself (R7, R167); and the two things
it must not do (R161). -/
inductive HostAct where
  /-- issue one command word and wait for its response (R45, R159) -/
  | command (w : CmdWord)
  /-- write one byte of `MEM` (R30, R160) -/
  | write (addr : Nat) (b : Byte)
  /-- read one byte of `MEM` (R30, R160) -/
  | read (addr : Nat)
  /-- assert and release the reset input between two commands (R155) -/
  | reset
  /-- issue one command word and assert the reset input while the command is in execution (R157) -/
  | resetDuring (w : CmdWord)
  /-- issue a command word before the response of the command before it (R159 forbids it, R161) -/
  | commandEarly (w : CmdWord)
  /-- reach the byte at `addr` of `MEM` while a command is in execution (R160 forbids it, R161) -/
  | touchEarly (addr : Nat)
  deriving DecidableEq, Repr

/-- The response of a command (R46): a 4-bit code and a 64-bit value. -/
structure Response where
  /-- one of the seven codes of R135 -/
  code : BitVec 4
  /-- the register for `RDSR`, else 0; for an error the command word that failed -/
  val : BitVec 64
  deriving DecidableEq, Repr

/-- What the host gets back (R167). -/
inductive HostObs where
  /-- the response of a command -/
  | response (r : Response)
  /-- a byte of `MEM` the host read -/
  | byte (addr : Nat) (b : Byte)
  deriving DecidableEq, Repr

/-- The machine. -/
structure State where
  /-- the 128-bit engine `E128` -/
  e128 : EngineState 4
  /-- the 256-bit engine `E256` -/
  e256 : EngineState 8
  /-- `MEM`: the bytes something has written, addresses strictly rising (R30; an unlisted byte has no value, log 4) -/
  mem : List Host.Cell
  /-- `MEM_BYTES`, the open parameter (R5; log 3); no step changes it -/
  memBytes : Nat
  /-- the model's own: the host's next actions, first one first (log 1) -/
  inputs : List HostAct
  /-- the model's own: what the host has got back, newest first (log 1) -/
  outputs : List HostObs
  /-- the model's own: how many resets have cut a command short, the argument of the free value (R157; log 7) -/
  freeChoices : Nat
  deriving DecidableEq, Repr

/-- Why the MODEL stops. The hardware's own errors are responses, not faults (60_exceptions.md R137). -/
inductive Fault where
  /-- raised by `ADD` and by a host read when they reach a byte of `MEM` that nothing has written: R24 and R162 ask a
  model to fault such a read rather than supply a value. SAFE: the hardware goes on with an unspecified byte. -/
  | unwrittenByte (addr : Nat)
  /-- raised by a host access at an address at or above `MEM_BYTES`, which does not exist (R37). SAFE: the spec gives
  such an access no meaning. A command never raises it: its range is checked first (R31, `BoundsError`). -/
  | noSuchAddress (addr : Nat)
  deriving DecidableEq, Repr

/-- Why the model gives no meaning. -/
inductive Refusal where
  /-- raised by an arm of `exec` whose instruction has no meaning yet; no arm is left with it. SAFE. -/
  | notModelled (mnemonic : String)
  /-- raised by the host's actions `commandEarly` and `touchEarly`: R161 puts what follows outside the spec and lets a
  model refuse it. SAFE: no claim is proved of such a run. No command raises it. -/
  | beforeResponse
  deriving DecidableEq, Repr

/-- What a step of the machine answers. -/
abbrev Result := Host.Outcome State Fault Refusal

/-- An engine right after reset (R24): `H = IV(e)`, `OFF = LEN = CLOSED = FAULT = 0`. `BUF` and `DIGEST` are
unspecified there; zero bytes are a DESIGN CHOICE, unsafe (logs 5 and 6): no rule reads them before they are
written (R13, R18). -/
def EngineState.reset {nw : Nat} (h : Vector Word nw) : EngineState nw where
  h := h
  buf := Vector.replicate 64 0
  off := 0
  len := 0
  closed := false
  fault := false
  digest := Vector.replicate (4 * nw) 0

/-- The machine right after power-up and reset (R24, R155): both engines Open, no byte of `MEM` written, nothing
asked by the host yet. -/
def State.reset : State where
  e128 := EngineState.reset iv128
  e256 := EngineState.reset iv256
  mem := []
  memBytes := Config.memBytes
  inputs := []
  outputs := []
  freeChoices := 0

end Sys2Proof.Machine
end

