-- ==== Sys2Proof/Machine/Ops.lean ====
section
/-! DEFINITION. The named operations over memory, engines and the interface, and the delivery of an error
(60_exceptions.md R137) as one shared operation. There is no return from an error to model (R148). -/

namespace Sys2Proof.Machine

/-! ### Memory -/

/-- The byte at an address; `none` where nothing has written (R24; log 4). -/
def Memory.read : List Host.Cell → Nat → Option Byte
  | [], _ => none
  | (a', b) :: m, a => if a = a' then some b else Memory.read m a

/-- `MEM[a] <- b`, keeping the addresses strictly rising. -/
def Memory.write : List Host.Cell → Nat → Byte → List Host.Cell
  | [], a, b => [(a, b)]
  | (a', b') :: m, a, b =>
    if a < a' then (a, b) :: (a', b') :: m
    else if a = a' then (a, b) :: m
    else (a', b') :: Memory.write m a b

/-- The canonical form: addresses strictly rising. (An unlisted address has no value, so no entry can equal one.) -/
def Memory.wf : List Host.Cell → Bool
  | [] => true
  | [_] => true
  | (a, _) :: (a', b') :: m => decide (a < a') && Memory.wf ((a', b') :: m)

/-- Every listed byte lies in the address space `0 .. memBytes − 1` (R30). -/
def Memory.within (memBytes : Nat) (m : List Host.Cell) : Bool :=
  m.all fun c => decide (c.1 < memBytes)

/-- `MemRead(addr, n)` (R32): the `n` bytes in ascending order, or the first address nothing has written. -/
def Memory.readBytes (m : List Host.Cell) : Nat → Nat → Except Nat (List Byte)
  | _, 0 => .ok []
  | a, n + 1 =>
    match Memory.read m a with
    | none => .error a
    | some b =>
      match Memory.readBytes m (a + 1) n with
      | .ok v => .ok (b :: v)
      | .error x => .error x

/-- `MemWrite(addr, n, v)` (R33): the bytes of `v` in ascending order. -/
def Memory.writeBytes : List Host.Cell → Nat → List Byte → List Host.Cell
  | m, _, [] => m
  | m, a, b :: v => Memory.writeBytes (Memory.write m a b) (a + 1) v

/-- An access of `n` bytes at `a` is in bounds (R31): the sum is taken in the integers and never wraps. -/
def inBounds (s : State) (a n : Nat) : Bool := decide (a + n ≤ s.memBytes)

/-! ### Engines -/

/-- The state of engine `e`. -/
def State.engine (s : State) : (e : Engine) → EngineState e.nw
  | .e128 => s.e128
  | .e256 => s.e256

/-- The machine with engine `e` in state `x`; the other engine is not touched (R51). -/
def State.setEngine (s : State) : (e : Engine) → EngineState e.nw → State
  | .e128, x => { s with e128 := x }
  | .e256, x => { s with e256 := x }

/-- The machine with `MEM` holding `m`. -/
def State.setMem (s : State) (m : List Host.Cell) : State := { s with mem := m }

/-- The machine with the host's next actions `l`. -/
def State.setInputs (s : State) (l : List HostAct) : State := { s with inputs := l }

/-- The host gets `o` back. -/
def State.observe (s : State) (o : HostObs) : State := { s with outputs := o :: s.outputs }

/-! ### Responses and errors -/

/-- The six errors of R135. -/
inductive Err where
  /-- `ADD` or `ADDI` on a closed engine (R140) -/
  | useAfterClose
  /-- `OFF[e] ≥ 64` at entry, or `OFF[e] ≠ 0` after the tail (R141) -/
  | invariantViolation
  /-- the word does not decode (R139) -/
  | illegalCommand
  /-- the memory range passes `MEM_BYTES` (R143) -/
  | boundsError
  /-- `LEN[e]` would pass `2^64 − 1` (R144) -/
  | lengthOverflow
  /-- `FAULT[e] = 1` (R145) -/
  | engineFaulted
  deriving DecidableEq, Repr

/-- The code `OK` (R135, R138). -/
def codeOK : BitVec 4 := 0

/-- The response code of an error (R135). -/
def errCode : Err → BitVec 4
  | .useAfterClose => 1
  | .invariantViolation => 2
  | .illegalCommand => 3
  | .boundsError => 4
  | .lengthOverflow => 5
  | .engineFaulted => 6

/-- `return (OK, v)` (R60 step 6, R63, R138). -/
def respondOk (v : BitVec 64) (s : State) : Result :=
  .next (s.observe (.response ⟨codeOK, v⟩))

/-- `FAULT[e] <- 1` (R17). -/
def State.latchFault (s : State) (e : Engine) : State :=
  s.setEngine e { s.engine e with fault := true }

/-- What an error writes besides its response: `InvariantViolation` sets the fault latch of the engine the command
names, the others write nothing (R137). -/
def errorEffect (err : Err) (e : Engine) (s : State) : State :=
  match err with
  | .invariantViolation => s.latchFault e
  | .useAfterClose => s
  | .illegalCommand => s
  | .boundsError => s
  | .lengthOverflow => s
  | .engineFaulted => s

/-- `raise <Error>(cmd)` (R137), the ONE way an error is taken: the command ends with the response
`(code of <Error>, cmd)`. -/
def raise (err : Err) (e : Engine) (cmd : CmdWord) (s : State) : Result :=
  .next ((errorEffect err e s).observe (.response ⟨errCode err, cmd⟩))

/-- Steps 3 and 4 of the frame of R60, for every command but `RDSR`, then the body. -/
def frame (e : Engine) (cmd : CmdWord) (s : State) (body : State → Result) : Result :=
  if (s.engine e).fault then raise .engineFaulted e cmd s
  else if 64 ≤ (s.engine e).off.toNat then raise .invariantViolation e cmd s
  else body s

/-! ### Reset and the host's own accesses -/

/-- Reset (R155): both engines take their reset values, `MEM` keeps its bytes; nothing else changes. -/
def applyReset (s : State) : State :=
  { s with e128 := EngineState.reset iv128, e256 := EngineState.reset iv256 }

/-- The host writes one byte of `MEM` (R30, R37; log 12). -/
def hostWrite (a : Nat) (b : Byte) (s : State) : Result :=
  if a < s.memBytes then .next (s.setMem (Memory.write s.mem a b)) else .fault (.noSuchAddress a)

/-- The host reads one byte of `MEM` (R30, R37; log 12): it gets the byte, and nothing changes. -/
def hostRead (a : Nat) (s : State) : Result :=
  if a < s.memBytes then
    match Memory.read s.mem a with
    | some b => .next (s.observe (.byte a b))
    | none => .fault (.unwrittenByte a)
  else .fault (.noSuchAddress a)

/-- The host issues the command word `w` next, before what it was going to do. -/
def issueNext (s : State) (w : CmdWord) : State := s.setInputs (.command w :: s.inputs)

end Sys2Proof.Machine
end

