-- ==== Sys2Proof/Machine/Flags.lean ====
section
/-! DEFINITION. The flags `CLOSED` and `FAULT`, the `STATUS` register that shows them and the three conditions of
an engine (10_state.md R16, R17, R19, R20). No other flag exists: no addition sets one (R106, R117). -/

namespace Sys2Proof.Machine

/-- `STATUS` of an engine, zero-extended to 64 bits (R19, R63): `OFF` in bits 14:8, `FAULT` in bit 1, `CLOSED` in
bit 0, every other bit 0. -/
def statusWord {nw : Nat} (x : EngineState nw) : BitVec 64 :=
  (x.off ++ (0 : BitVec 6) ++ BitVec.ofBool x.fault ++ BitVec.ofBool x.closed).zeroExtend 64

/-- The three conditions of an engine (R20). -/
inductive Condition where
  /-- `FAULT[e] = 1` -/
  | faulted
  /-- `FAULT[e] = 0` and `CLOSED[e] = 1` -/
  | closed
  /-- `FAULT[e] = 0` and `CLOSED[e] = 0` -/
  | opened
  deriving DecidableEq, Repr

/-- The condition an engine is in (R20). -/
def condition {nw : Nat} (x : EngineState nw) : Condition :=
  if x.fault then .faulted else if x.closed then .closed else .opened

end Sys2Proof.Machine
end

