-- ==== Sys2Proof/Machine/Operands.lean ====
section
/-! DEFINITION. The operand forms of 30_encoding.md R49: a selector names a status register (10_state.md R19), an
address and a count name a range of `MEM`, an immediate is one message byte. -/

namespace Sys2Proof.Machine

/-- `zext(cmd[47:24])` or `zext(cmd[23:0])` as an integer: `off`, `dst`, `len` (R49). -/
def operandNat (v : BitVec 24) : Nat := v.toNat

/-- The status register `sel` of an engine, zero-extended to 64 bits (R63); `none` where the engine has no such
register (R52 item 5). -/
def statusRegister (e : Engine) (sel : BitVec 8) (x : EngineState e.nw) : Option (BitVec 64) :=
  if sel = selStatus then some (statusWord x)
  else if sel = selLen then some x.len
  else if h : selH0.toNat ≤ sel.toNat ∧ sel.toNat - selH0.toNat < e.nw then
    some ((x.h[sel.toNat - selH0.toNat]'h.2).zeroExtend 64)
  else none

end Sys2Proof.Machine
end

