-- ==== Sys2Proof/Machine/Scheduler.lean ====
section
/-! DEFINITION. The block schedulers (43_message_scheduler.md): the 128-bit block decoder with its word order, and
`message_scheduler_256bit`. Pure functions of one block. -/

namespace Sys2Proof.Machine

/-- `Decode128(blk)`: 16 little-endian words (R90). -/
def decode128 (blk : Block) : Vector Word 16 :=
  Vector.ofFn fun j : Fin 16 =>
    le32 (blk[4 * j.val]'(by omega)) (blk[4 * j.val + 1]'(by omega)) (blk[4 * j.val + 2]'(by omega))
      (blk[4 * j.val + 3]'(by omega))

/-- `WIndex128(i)`: the message word that round `i` adds (R91). -/
def wIndex128 (i : Fin 64) : Fin 16 :=
  if i.val ≤ 15 then Fin.ofNat 16 i.val
  else if i.val ≤ 31 then Fin.ofNat 16 (5 * i.val + 1)
  else if i.val ≤ 47 then Fin.ofNat 16 (3 * i.val + 5)
  else Fin.ofNat 16 (7 * i.val)

/-- `W[0 .. 15]`: 16 big-endian words (R92). -/
def firstWords256 (blk : Block) : Vector Word 16 :=
  Vector.ofFn fun t : Fin 16 =>
    be32 (blk[4 * t.val]'(by omega)) (blk[4 * t.val + 1]'(by omega)) (blk[4 * t.val + 2]'(by omega))
      (blk[4 * t.val + 3]'(by omega))

/-- `σ0` (R94). -/
def smallSigma0 (x : Word) : Word := rotr32 x 7 ^^^ rotr32 x 18 ^^^ shr32 x 3

/-- `σ1` (R94). -/
def smallSigma1 (x : Word) : Word := rotr32 x 17 ^^^ rotr32 x 19 ^^^ shr32 x 10

/-- `σ1(W[t−2]) +32 W[t−7] +32 σ0(W[t−15]) +32 W[t−16]` (R93). -/
def scheduleWord (w2 w7 w15 w16 : Word) : Word := smallSigma1 w2 + w7 + smallSigma0 w15 + w16

/-- One step `t` of the expansion (R93), for `t` in `16 .. 63`. -/
def expandAt (w : Vector Word 64) (t : Fin 64) : Vector Word 64 :=
  w.set t.val (scheduleWord (w[t.val - 2]'(by omega)) (w[t.val - 7]'(by omega)) (w[t.val - 15]'(by omega))
    (w[t.val - 16]'(by omega)))

/-- `Schedule256(blk)`: the 16 words of the block, then `W[t]` for `t = 16 .. 63`, ascending (R93). -/
def schedule256 (blk : Block) : Vector Word 64 :=
  ((List.finRange 64).drop 16).foldl expandAt (firstWords256 blk ++ Vector.replicate 48 (0 : Word))

end Sys2Proof.Machine
end

