-- ==== Sys2Proof/Machine/Compress.lean ====
section
/-! DEFINITION. The two compression functions (44_hash_compressor_128bit.md, 45_hash_compressor_256bit.md). Every
addition is modulo `2^32` (R106, R117). -/

namespace Sys2Proof.Machine

/-! ### The 128-bit engine -/

/-- The working variables of `Compress128` (R104); transient, not state (R22). -/
structure Work128 where
  a : Word
  b : Word
  c : Word
  d : Word
  deriving DecidableEq, Repr

/-- `F` (R103). -/
def auxF (x y z : Word) : Word := (x &&& y) ||| (~~~x &&& z)

/-- `G` (R103). -/
def auxG (x y z : Word) : Word := (x &&& z) ||| (y &&& ~~~z)

/-- `H` (R103). -/
def auxH (x y z : Word) : Word := x ^^^ y ^^^ z

/-- `I` (R103). -/
def auxI (x y z : Word) : Word := y ^^^ (x ||| ~~~z)

/-- `Aux128(i, x, y, z)`: `F`, `G`, `H` or `I` by the round group (R103). -/
def aux128 (i : Fin 64) (x y z : Word) : Word :=
  if i.val / 16 = 0 then auxF x y z
  else if i.val / 16 = 1 then auxG x y z
  else if i.val / 16 = 2 then auxH x y z
  else auxI x y z

/-- Round `i` (R104): the new `b` is the old `b` plus the rotated sum, and the roles rotate A←D←C←B←A. -/
def round128 (m : Vector Word 16) (v : Work128) (i : Fin 64) : Work128 where
  a := v.d
  b := v.b + rotl32 (v.a + aux128 i v.b v.c v.d + k128[i] + m[wIndex128 i]) (s128 i)
  c := v.b
  d := v.c

/-- The 64 rounds, ascending (R104). -/
def rounds128 (m : Vector Word 16) (v : Work128) : Work128 := (List.finRange 64).foldl (round128 m) v

/-- The final addition of the working variables to the state words at entry (R105). -/
def addState128 (S : Vector Word 4) (v : Work128) : Vector Word 4 :=
  #v[S[0] + v.a, S[1] + v.b, S[2] + v.c, S[3] + v.d]

/-- `Compress128(S, blk)` (R104). -/
def compress128 (S : Vector Word 4) (blk : Block) : Vector Word 4 :=
  addState128 S (rounds128 (decode128 blk) ⟨S[0], S[1], S[2], S[3]⟩)

/-! ### The 256-bit engine -/

/-- The working variables of `Compress256` (R115); transient, not state (R22). -/
structure Work256 where
  a : Word
  b : Word
  c : Word
  d : Word
  e : Word
  f : Word
  g : Word
  h : Word
  deriving DecidableEq, Repr

/-- `Σ0` (R113). -/
def bigSigma0 (x : Word) : Word := rotr32 x 2 ^^^ rotr32 x 13 ^^^ rotr32 x 22

/-- `Σ1` (R113). -/
def bigSigma1 (x : Word) : Word := rotr32 x 6 ^^^ rotr32 x 11 ^^^ rotr32 x 25

/-- `Ch` (R114). -/
def ch (e f g : Word) : Word := (e &&& f) ^^^ (~~~e &&& g)

/-- `Maj` (R114). -/
def maj (a b c : Word) : Word := (a &&& b) ^^^ (a &&& c) ^^^ (b &&& c)

/-- `T1 = h +32 Σ1(e) +32 Ch(e, f, g) +32 K256[t] +32 W[t]` (R115). -/
def t1Of (w : Vector Word 64) (v : Work256) (t : Fin 64) : Word :=
  v.h + bigSigma1 v.e + ch v.e v.f v.g + k256[t] + w[t]

/-- `T2 = Σ0(a) +32 Maj(a, b, c)` (R115). -/
def t2Of (v : Work256) : Word := bigSigma0 v.a + maj v.a v.b v.c

/-- Round `t` (R115): all eight variables are read before any is written. -/
def round256 (w : Vector Word 64) (v : Work256) (t : Fin 64) : Work256 where
  a := t1Of w v t + t2Of v
  b := v.a
  c := v.b
  d := v.c
  e := v.d + t1Of w v t
  f := v.e
  g := v.f
  h := v.g

/-- The 64 rounds, ascending (R115). -/
def rounds256 (w : Vector Word 64) (v : Work256) : Work256 := (List.finRange 64).foldl (round256 w) v

/-- The final addition of the working variables to the state words at entry (R116). -/
def addState256 (S : Vector Word 8) (v : Work256) : Vector Word 8 :=
  #v[S[0] + v.a, S[1] + v.b, S[2] + v.c, S[3] + v.d, S[4] + v.e, S[5] + v.f, S[6] + v.g, S[7] + v.h]

/-- `Compress256(S, blk)` (R115). -/
def compress256 (S : Vector Word 8) (blk : Block) : Vector Word 8 :=
  addState256 S (rounds256 (schedule256 blk) ⟨S[0], S[1], S[2], S[3], S[4], S[5], S[6], S[7]⟩)

/-- `Compress(e, S, blk)` (R80). -/
def compress : (e : Engine) → Vector Word e.nw → Block → Vector Word e.nw
  | .e128, S, blk => compress128 S blk
  | .e256, S, blk => compress256 S blk

end Sys2Proof.Machine
end

