-- ==== Sys2Proof/Machine/Padding.lean ====
section
/-! DEFINITION. The `padding_engine`: the Padder (41_padding_engine.md) and the Incremental Buffer's primitive
(42_incremental_buffer.md). -/

namespace Sys2Proof.Machine

/-- `LenField(e, L)`: the 8 length bytes, little-endian for `E128`, big-endian for `E256` (R73, C1). -/
def lenField : Engine → BitVec 64 → List Byte
  | .e128, L => [byteOf L 0, byteOf L 1, byteOf L 2, byteOf L 3, byteOf L 4, byteOf L 5, byteOf L 6, byteOf L 7]
  | .e256, L => [byteOf L 7, byteOf L 6, byteOf L 5, byteOf L 4, byteOf L 3, byteOf L 2, byteOf L 1, byteOf L 0]

/-- `T` of R72: the length of the tail, `64 − OFF`, plus 64 where that is below 9 (C7). -/
def tailLength (off : BitVec 7) : Nat :=
  if 64 - off.toNat < 9 then 64 - off.toNat + 64 else 64 - off.toNat

/-- `Tail(e)` of R72 for given `OFF` and `LEN`: `0x80`, zero bytes, the length field. -/
def tail (e : Engine) (off : BitVec 7) (len : BitVec 64) : List Byte :=
  [0x80] ++ List.replicate (tailLength off - 9) 0 ++ lenField e len

/-- `Absorb(e, byte)` of R80. It requires `OFF ≤ 63`; every caller has checked that (log 11). -/
def absorb (e : Engine) (x : EngineState e.nw) (b : Byte) : EngineState e.nw :=
  let buf := x.buf.setIfInBounds x.off.toNat b
  if x.off + 1 = 64 then { x with buf := buf, h := compress e x.h buf, off := 0 }
  else { x with buf := buf, off := x.off + 1 }

/-- A run of `Absorb` over bytes, the first one first (R81, R82, R120 steps 3 to 5). -/
def absorbAll (e : Engine) (x : EngineState e.nw) (v : List Byte) : EngineState e.nw := v.foldl (absorb e) x

end Sys2Proof.Machine
end

