-- ==== Sys2Proof/Machine/Control.lean ====
section
/-! DEFINITION. `INIT` and `RDSR` (40_commands.md R62, R63). -/

namespace Sys2Proof.Machine

/-- The engine as `INIT` leaves it (R62): `H`, `OFF`, `LEN`, `CLOSED` as at construction, `BUF`, `DIGEST` and
`FAULT` kept. -/
def initEngine (e : Engine) (x : EngineState e.nw) : EngineState e.nw :=
  { x with h := iv e, off := 0, len := 0, closed := false }

/-- `INIT e` (R62). -/
def execInit (e : Engine) (s : State) : Result :=
  frame e (encode (.init e)) s fun s => respondOk 0 (s.setEngine e (initEngine e (s.engine e)))

/-- `RDSR e, sel` (R63): no step of the frame but decoding; a selector the engine lacks is an illegal command
(R52 item 5; log 10). -/
def execRdsr (e : Engine) (sel : BitVec 8) (s : State) : Result :=
  match statusRegister e sel (s.engine e) with
  | some v => respondOk v s
  | none => raise .illegalCommand e (encode (.rdsr e sel)) s

end Sys2Proof.Machine
end

