-- ==== Sys2Proof/Machine/Serializer.lean ====
section
/-! DEFINITION. The `digest_serializer` (46_digest_serializer.md): `Serialize`, `Hex` and `Finalize`. -/

namespace Sys2Proof.Machine

/-- `Serialize(E128, S)`: each word least significant byte first (R122). -/
def serialize128 (S : Vector Word 4) : Vector Byte 16 :=
  #v[byteOf S[0] 0, byteOf S[0] 1, byteOf S[0] 2, byteOf S[0] 3,
    byteOf S[1] 0, byteOf S[1] 1, byteOf S[1] 2, byteOf S[1] 3,
    byteOf S[2] 0, byteOf S[2] 1, byteOf S[2] 2, byteOf S[2] 3,
    byteOf S[3] 0, byteOf S[3] 1, byteOf S[3] 2, byteOf S[3] 3]

/-- `Serialize(E256, S)`: each word most significant byte first (R121). -/
def serialize256 (S : Vector Word 8) : Vector Byte 32 :=
  #v[byteOf S[0] 3, byteOf S[0] 2, byteOf S[0] 1, byteOf S[0] 0,
    byteOf S[1] 3, byteOf S[1] 2, byteOf S[1] 1, byteOf S[1] 0,
    byteOf S[2] 3, byteOf S[2] 2, byteOf S[2] 1, byteOf S[2] 0,
    byteOf S[3] 3, byteOf S[3] 2, byteOf S[3] 1, byteOf S[3] 0,
    byteOf S[4] 3, byteOf S[4] 2, byteOf S[4] 1, byteOf S[4] 0,
    byteOf S[5] 3, byteOf S[5] 2, byteOf S[5] 1, byteOf S[5] 0,
    byteOf S[6] 3, byteOf S[6] 2, byteOf S[6] 1, byteOf S[6] 0,
    byteOf S[7] 3, byteOf S[7] 2, byteOf S[7] 1, byteOf S[7] 0]

/-- `Serialize(e, S)` (R121, R122): `DB(e)` bytes. -/
def serialize : (e : Engine) → Vector Word e.nw → Vector Byte (4 * e.nw)
  | .e128, S => serialize128 S
  | .e256, S => serialize256 S

/-- `HexDigit(v)`: lowercase ASCII (R123). -/
def hexDigit (v : BitVec 4) : Byte :=
  if v.toNat ≤ 9 then BitVec.ofNat 8 (0x30 + v.toNat) else BitVec.ofNat 8 (0x61 + (v.toNat - 10))

/-- The two characters of a byte, high nibble first (R123). -/
def hexByte (b : Byte) : List Byte := [hexDigit (b.extractLsb' 4 4), hexDigit (b.extractLsb' 0 4)]

/-- `Hex(D)` (R123): no prefix, separator or terminator. -/
def hex : List Byte → List Byte
  | [] => []
  | b :: d => hexByte b ++ hex d

/-- Step 7 of `Finalize`: `DIGEST[e] <- Serialize(e, H[e]); CLOSED[e] <- 1` (R120). -/
def closeEngine (e : Engine) (x : EngineState e.nw) : EngineState e.nw :=
  { x with digest := serialize e x.h, closed := true }

/-- Steps 2 to 5 of `Finalize`: the tail, computed from `OFF` and `LEN` as they stand, is absorbed (R120). -/
def absorbTail (e : Engine) (x : EngineState e.nw) : EngineState e.nw :=
  absorbAll e x (tail e x.off x.len)

/-- `Finalize(e)` (R120), then the rest of the command. A closed engine is left as it is. If the pending buffer is
not empty after the tail, the engine is Faulted with its state as the tail left it (R141 (b); log 8). -/
def finalize (e : Engine) (cmd : CmdWord) (s : State) (rest : State → Result) : Result :=
  if (s.engine e).closed then rest s
  else if (absorbTail e (s.engine e)).off ≠ 0 then
    raise .invariantViolation e cmd (s.setEngine e (absorbTail e (s.engine e)))
  else rest (s.setEngine e (closeEngine e (absorbTail e (s.engine e))))

end Sys2Proof.Machine
end

