-- ==== Sys2Proof/Machine/Digest.lean ====
section
/-! DEFINITION. `FIN`, `GETB` and `GETH` (46_digest_serializer.md R124, R125, R126). -/

namespace Sys2Proof.Machine

/-- The bytes `GETB e` writes: `DIGEST[e][0 .. DB(e) − 1]` (R125). -/
def digestBytes (e : Engine) (s : State) : List Byte := (s.engine e).digest.toList

/-- The characters `GETH e` writes: `Hex(DIGEST[e][0 .. DB(e) − 1])` (R126). -/
def digestHex (e : Engine) (s : State) : List Byte := hex (s.engine e).digest.toList

/-- `FIN e` (R124). -/
def execFin (e : Engine) (s : State) : Result :=
  frame e (encode (.fin e)) s fun s => finalize e (encode (.fin e)) s (respondOk 0)

/-- `GETB e, dst` (R125): the bounds test comes before `Finalize`. -/
def execGetb (e : Engine) (dst : BitVec 24) (s : State) : Result :=
  frame e (encode (.getb e dst)) s fun s =>
    if !inBounds s (operandNat dst) (4 * e.nw) then raise .boundsError e (encode (.getb e dst)) s
    else finalize e (encode (.getb e dst)) s fun s =>
      respondOk 0 (s.setMem (Memory.writeBytes s.mem (operandNat dst) (digestBytes e s)))

/-- `GETH e, dst` (R126): the bounds test comes before `Finalize`. -/
def execGeth (e : Engine) (dst : BitVec 24) (s : State) : Result :=
  frame e (encode (.geth e dst)) s fun s =>
    if !inBounds s (operandNat dst) (2 * (4 * e.nw)) then raise .boundsError e (encode (.geth e dst)) s
    else finalize e (encode (.geth e dst)) s fun s =>
      respondOk 0 (s.setMem (Memory.writeBytes s.mem (operandNat dst) (digestHex e s)))

end Sys2Proof.Machine
end

