-- ==== Sys2Proof/Machine/Submit.lean ====
section
/-! DEFINITION. `ADD` and `ADDI` (42_incremental_buffer.md R82, R83). -/

namespace Sys2Proof.Machine

/-- `LEN[e] + 8 × n > 2^64 − 1`, the sum in the integers (R82, R83, R144). -/
def lengthOverflows {nw : Nat} (x : EngineState nw) (n : Nat) : Bool :=
  decide (2 ^ 64 - 1 < x.len.toNat + 8 * n)

/-- `LEN[e] <- LEN[e] +64 (8 × n)` for the `n` bytes of `v`, then the bytes are absorbed in order (R82, R83). -/
def submit (e : Engine) (x : EngineState e.nw) (v : List Byte) : EngineState e.nw :=
  absorbAll e { x with len := x.len + BitVec.ofNat 64 (8 * v.length) } v

/-- `ADD e, off, len` (R82). A byte nothing has written faults the read (R162; log 4). -/
def execAdd (e : Engine) (off len : BitVec 24) (s : State) : Result :=
  frame e (encode (.add e off len)) s fun s =>
    if (s.engine e).closed then raise .useAfterClose e (encode (.add e off len)) s
    else if !inBounds s (operandNat off) (operandNat len) then
      raise .boundsError e (encode (.add e off len)) s
    else if lengthOverflows (s.engine e) (operandNat len) then
      raise .lengthOverflow e (encode (.add e off len)) s
    else
      match Memory.readBytes s.mem (operandNat off) (operandNat len) with
      | .ok v => respondOk 0 (s.setEngine e (submit e (s.engine e) v))
      | .error a => .fault (.unwrittenByte a)

/-- `ADDI e, imm8` (R83). -/
def execAddi (e : Engine) (imm8 : Byte) (s : State) : Result :=
  frame e (encode (.addi e imm8)) s fun s =>
    if (s.engine e).closed then raise .useAfterClose e (encode (.addi e imm8)) s
    else if lengthOverflows (s.engine e) 1 then raise .lengthOverflow e (encode (.addi e imm8)) s
    else respondOk 0 (s.setEngine e (submit e (s.engine e) [imm8]))

end Sys2Proof.Machine
end

