-- ==== Sys2Proof/Machine/Dispatch.lean ====
section
/-! DEFINITION. `exec`: one arm per command, each one call of its meaning (40_commands.md R60 step 5). -/

namespace Sys2Proof.Machine

def exec (i : Instr) (s : State) : Host.Outcome State Fault Refusal :=
  match i with
  | .init e => Sys2Proof.Machine.execInit e s
  | .add e off len => Sys2Proof.Machine.execAdd e off len s
  | .addi e imm8 => Sys2Proof.Machine.execAddi e imm8 s
  | .fin e => Sys2Proof.Machine.execFin e s
  | .getb e dst => Sys2Proof.Machine.execGetb e dst s
  | .geth e dst => Sys2Proof.Machine.execGeth e dst s
  | .rdsr e sel => Sys2Proof.Machine.execRdsr e sel s

end Sys2Proof.Machine
end

