-- ==== Sys2Proof/Machine/HostPort.lean ====
section
/-! DEFINITION. The command port and the host's actions (00_scope.md R6, R7; 40_commands.md R60; 70_reset_and_hazards.md
R167): what each of the host's actions does to the machine. -/

namespace Sys2Proof.Machine

/-- `Exec(cmd)` of R60: decode, then the command; a word that does not decode raises `IllegalCommand` whatever the
state (R139). -/
def execWord (w : CmdWord) (s : State) : Result :=
  match decode w with
  | .ok i => exec i s
  | .error _ => raise .illegalCommand (engineOf w) w s

/-- The range of `MEM` a command writes: first address and number of bytes (R125, R126). -/
def destination : Instr → Nat × Nat
  | .init _ => (0, 0)
  | .add _ _ _ => (0, 0)
  | .addi _ _ => (0, 0)
  | .fin _ => (0, 0)
  | .getb e dst => (operandNat dst, 4 * e.nw)
  | .geth e dst => (operandNat dst, 2 * (4 * e.nw))
  | .rdsr _ _ => (0, 0)

/-- `MEM` after a command that was cut short: of the `n` bytes at `a`, those that `took` names are as in `new`, the
others as they were (R157). -/
def takeBytes (took : Nat → Bool) (new : List Host.Cell) : List Host.Cell → Nat → Nat → List Host.Cell
  | m, _, 0 => m
  | m, a, n + 1 =>
    match took a, Memory.read new a with
    | true, some b => takeBytes took new (Memory.write m a b) (a + 1) n
    | _, _ => takeBytes took new m (a + 1) n

/-- `MEM` as a command would have left it. -/
def memAfter (i : Instr) (s : State) : List Host.Cell :=
  match exec i s with
  | .next t => t.mem
  | .fault _ => s.mem
  | .refused _ => s.mem

/-- `MEM` when a reset has cut the command `w` short (R157). -/
def memCutShort (w : CmdWord) (s : State) : List Host.Cell :=
  match decode w with
  | .ok i =>
    takeBytes (Config.resetTookByte s.freeChoices) (memAfter i s) s.mem (destination i).1 (destination i).2
  | .error _ => s.mem

/-- A reset while the command `w` is in execution (R157): no response; both engines take their reset values; each
byte of the destination of a `GETB` or `GETH` is its old value or the value the command would have written. -/
def applyResetDuring (w : CmdWord) (s : State) : State :=
  { applyReset s with mem := memCutShort w s, freeChoices := s.freeChoices + 1 }

/-- One action of the host (R167). -/
def perform (act : HostAct) (s : State) : Result :=
  match act with
  | .command w => execWord w s
  | .write a b => hostWrite a b s
  | .read a => hostRead a s
  | .reset => .next (applyReset s)
  | .resetDuring w => .next (applyResetDuring w s)
  | .commandEarly _ => .refused .beforeResponse
  | .touchEarly _ => .refused .beforeResponse

/-- One step: the host's next action is taken from the list and performed; with none left the CORE waits with all
state held (R64, R152, R167; log 13). -/
def stepHost (s : State) : Result :=
  match s.inputs with
  | [] => .next s
  | act :: rest => perform act (s.setInputs rest)

/-- `issueNext` for a word numbered as spec/opcode_table.json numbers it. -/
def issueTableWord (s : State) (nbits w : Nat) : State :=
  issueNext s (BitVec.ofNat 64 (w % 2 ^ nbits))

end Sys2Proof.Machine
end

