-- ==== Sys2Proof/Machine/Step.lean ====
section
/-! DEFINITION. One step of the machine, and where the host puts a command word for the next step. -/

namespace Sys2Proof.Machine

/-- One step (00_scope.md R6): the next action of the host, performed whole. -/
def step (s : State) : Host.Outcome State Fault Refusal := stepHost s

/-- The host issues the command word `w` next: there is no fetch (10_state.md R12), so this stands for the host
handing the command to the port (logs 1 and 2). -/
def State.withFetchWord (s : State) (nbits w : Nat) : State := issueTableWord s nbits w

end Sys2Proof.Machine
end

