-- ==== Sys2Proof/Machine/Assembler.lean ====
section
/-! DEFINITION. The host's side of 30_encoding.md: the assembler (R54) and the pseudo-instructions with the way the
host issues them (R55). Neither is a part of the CORE: they yield command words and commands. -/

namespace Sys2Proof.Machine

/-! ### The assembler -/

/-- The mnemonics (R54). -/
inductive Mnemonic where
  | init
  | add
  | addi
  | fin
  | getb
  | geth
  | rdsr
  deriving DecidableEq, Repr

/-- A register name, for `RDSR` only (R54). -/
inductive RegName where
  | status
  | len
  /-- `H0` .. `H7` -/
  | word (i : Fin 8)
  deriving DecidableEq, Repr

/-- An operand of a line (R54). -/
inductive AsmOperand where
  | num (n : Nat)
  | reg (r : RegName)
  deriving DecidableEq, Repr

/-- A line of assembly (R54). -/
structure AsmLine where
  mnemonic : Mnemonic
  engine : Engine
  operands : List AsmOperand
  deriving DecidableEq, Repr

/-- Why the assembler rejects a line (R54). -/
inductive AsmError where
  /-- the text is not a line of the grammar -/
  | notALine
  /-- the command does not take these operands -/
  | wrongOperands
  /-- an operand does not fit its field -/
  | operandTooLarge
  /-- the engine lacks the register named -/
  | noSuchRegister
  deriving DecidableEq, Repr

/-- A number as an operand of `k` bits; one that does not fit is rejected (R54). -/
def fitOperand (k n : Nat) : Except AsmError (BitVec k) :=
  if n < 2 ^ k then .ok (BitVec.ofNat k n) else .error .operandTooLarge

/-- The selector number of a register name (R54). -/
def regSelector : RegName → BitVec 8
  | .status => selStatus
  | .len => selLen
  | .word i => selH0 + BitVec.ofNat 8 i.val

/-- The selector operand of `RDSR`: a number that fits, or a name the engine has (R54). -/
def selOperand (e : Engine) : AsmOperand → Except AsmError (BitVec 8)
  | .num n => fitOperand 8 n
  | .reg r => if legalSel e (regSelector r) then .ok (regSelector r) else .error .noSuchRegister

/-- How many operands R47's table gives a command after its engine. -/
def operandCount : Mnemonic → Nat
  | .init => 0
  | .add => 2
  | .addi => 1
  | .fin => 0
  | .getb => 1
  | .geth => 1
  | .rdsr => 1

/-- The command of a line, its operands in the order of R47's table (R54). -/
def assembleInstr (l : AsmLine) : Except AsmError Instr :=
  match l.mnemonic, l.operands with
  | .init, [] => .ok (.init l.engine)
  | .add, [.num off, .num len] =>
    (fitOperand 24 off).bind fun a => (fitOperand 24 len).map fun n => .add l.engine a n
  | .addi, [.num b] => (fitOperand 8 b).map fun x => .addi l.engine x
  | .fin, [] => .ok (.fin l.engine)
  | .getb, [.num dst] => (fitOperand 24 dst).map fun a => .getb l.engine a
  | .geth, [.num dst] => (fitOperand 24 dst).map fun a => .geth l.engine a
  | .rdsr, [o] => (selOperand l.engine o).map fun sel => .rdsr l.engine sel
  | _, _ => .error .wrongOperands

/-- The word of a line: R45's formula with `Z = 0` and unused fields 0 (R54). -/
def assemble (l : AsmLine) : Except AsmError CmdWord := (assembleInstr l).map encode

/-! ### The text of a line -/

/-- The characters between separators. -/
def splitChars (sep : Char → Bool) : List Char → List (List Char)
  | [] => [[]]
  | c :: cs =>
    if sep c then [] :: splitChars sep cs
    else
      match splitChars sep cs with
      | [] => [[c]]
      | w :: ws => (c :: w) :: ws

/-- The words of a text: what stands between blanks. -/
def wordsOf (t : List Char) : List (List Char) :=
  (splitChars (fun c => c == ' ' || c == '\t') t).filter fun w => !w.isEmpty

/-- The value of a digit character, to base 16. -/
def digitValue (c : Char) : Option Nat :=
  if 48 ≤ c.toNat ∧ c.toNat ≤ 57 then some (c.toNat - 48)
  else if 97 ≤ c.toNat ∧ c.toNat ≤ 102 then some (c.toNat - 87)
  else if 65 ≤ c.toNat ∧ c.toNat ≤ 70 then some (c.toNat - 55)
  else none

/-- A string of digits to a base, most significant first, after the value `acc`. -/
def digitsValue (base : Nat) : Nat → List Char → Option Nat
  | acc, [] => some acc
  | acc, c :: cs =>
    match digitValue c with
    | some d => if d < base then digitsValue base (acc * base + d) cs else none
    | none => none

/-- A decimal number, or `0x` and a hexadecimal number (R54). -/
def parseNumber : List Char → Option Nat
  | [] => none
  | '0' :: 'x' :: c :: cs => digitsValue 16 0 (c :: cs)
  | c :: cs => digitsValue 10 0 (c :: cs)

/-- A mnemonic, in upper case. -/
def parseMnemonic (w : List Char) : Option Mnemonic :=
  if w = ['I', 'N', 'I', 'T'] then some .init
  else if w = ['A', 'D', 'D'] then some .add
  else if w = ['A', 'D', 'D', 'I'] then some .addi
  else if w = ['F', 'I', 'N'] then some .fin
  else if w = ['G', 'E', 'T', 'B'] then some .getb
  else if w = ['G', 'E', 'T', 'H'] then some .geth
  else if w = ['R', 'D', 'S', 'R'] then some .rdsr
  else none

/-- An engine name, in upper case. -/
def parseEngine (w : List Char) : Option Engine :=
  if w = ['E', '1', '2', '8'] then some .e128
  else if w = ['E', '2', '5', '6'] then some .e256
  else none

/-- A register name, in upper case. -/
def parseReg (w : List Char) : Option RegName :=
  if w = ['S', 'T', 'A', 'T', 'U', 'S'] then some .status
  else if w = ['L', 'E', 'N'] then some .len
  else
    match w with
    | ['H', c] => if h : 48 ≤ c.toNat ∧ c.toNat - 48 < 8 then some (.word ⟨c.toNat - 48, h.2⟩) else none
    | _ => none

/-- An operand: one word, a number or a register name (either case, R54; log 14). -/
def parseOperand (t : List Char) : Option AsmOperand :=
  match wordsOf t with
  | [w] =>
    match parseNumber w with
    | some n => some (.num n)
    | none => (parseReg (w.map Char.toUpper)).map .reg
  | _ => none

/-- `line := mnemonic engine [ "," operand [ "," operand ] ] [ ";" comment ]` (R54). -/
def parseLine (t : List Char) : Option AsmLine :=
  match splitChars (· == ',') (t.takeWhile (· != ';')) with
  | [] => none
  | head :: ops =>
    match wordsOf head with
    | [m, e] =>
      match parseMnemonic (m.map Char.toUpper), parseEngine (e.map Char.toUpper), ops.mapM parseOperand with
      | some m, some e, some l => some ⟨m, e, l⟩
      | _, _, _ => none
    | _ => none

/-- The word of a line of text (R54). -/
def assembleText (t : List Char) : Except AsmError CmdWord :=
  match parseLine t with
  | some l => assemble l
  | none => .error .notALine

/-! ### Pseudo-instructions -/

/-- The pseudo-instructions of R55. -/
inductive Pseudo where
  | hashb (e : Engine) (off len dst : BitVec 24)
  | hashh (e : Engine) (off len dst : BitVec 24)
  | adds (e : Engine) (text : List Char)
  | nop (e : Engine)
  deriving DecidableEq, Repr

/-- The characters `ADDS` may hold: `0x20 .. 0x7E` other than the double quote (R55). -/
def addsChar (c : Char) : Bool := decide (0x20 ≤ c.toNat ∧ c.toNat ≤ 0x7E ∧ c.toNat ≠ 0x22)

/-- The expansion of a pseudo-instruction (R55); `none` where `ADDS` holds a character it may not. -/
def expandPseudo : Pseudo → Option (List Instr)
  | .hashb e off len dst => some [.init e, .add e off len, .getb e dst]
  | .hashh e off len dst => some [.init e, .add e off len, .geth e dst]
  | .adds e text => if text.all addsChar then some (text.map fun c => .addi e (BitVec.ofNat 8 c.toNat)) else none
  | .nop e => some [.add e 0 0]

/-- The code of the response the host has got last. -/
def lastCode (s : State) : Option (BitVec 4) :=
  match s.outputs with
  | .response r :: _ => some r.code
  | _ => none

/-- The host issues commands one after the other and stops at the first response whose code is not 0 (R55). -/
def issueAll : List Instr → State → Result
  | [], s => .next s
  | i :: is, s =>
    match exec i s with
    | .next t => if lastCode t = some codeOK then issueAll is t else .next t
    | .fault f => .fault f
    | .refused r => .refused r

end Sys2Proof.Machine
end

