-- ==== Sys2Proof/Safety.lean ====
section
/-! DEFINITION. What claims are stated in: the invariants of 10_state.md R20 and R21, what a command owes the host,
and the digest of a message in one shot (41_padding_engine.md R75), written without the incremental buffer. -/

namespace Sys2Proof

open Sys2Proof.Machine

/-! ### Invariants -/

/-- `MEM` is in canonical form and inside the address space, whose size is one the spec allows (R5, R30). -/
def MemoryOk (s : State) : Prop :=
  Memory.wf s.mem = true ∧ Memory.within s.memBytes s.mem = true ∧ 1 ≤ s.memBytes ∧
    s.memBytes ≤ Config.maxMemBytes

/-- What R21 says of the registers of one engine alone: items 1 and 4 (not faulted, `OFF ≤ 63`; while closed `OFF = 0`
and `DIGEST = Serialize(e, H)`), of item 2 that `LEN` is a whole number of bytes, of item 3 that while open
`OFF = (LEN / 8) mod 64`. What it says of the accepted bytes is `Holds`. -/
structure EngineOk (e : Engine) (x : EngineState e.nw) : Prop where
  notFaulted : x.fault = false
  offset : x.off.toNat ≤ 63
  wholeBytes : x.len.toNat % 8 = 0
  openOffset : x.closed = false → x.off.toNat = x.len.toNat / 8 % 64
  closedOffset : x.closed = true → x.off = 0
  closedDigest : x.closed = true → x.digest = serialize e x.h

/-- The invariant of the machine: `MEM` (R30) and what R21 says of the registers of each engine. -/
structure MachineInv (s : State) : Prop where
  memory : MemoryOk s
  e128 : EngineOk .e128 s.e128
  e256 : EngineOk .e256 s.e256

/-- The checks of R60 steps 3 and 4 pass for engine `e`. -/
abbrev Ready (s : State) (e : Engine) : Prop := (s.engine e).fault = false ∧ (s.engine e).off.toNat ≤ 63

/-- The `n` bytes of `MEM` from `a` have been written (R162). -/
abbrev Written (s : State) (a n : Nat) : Prop := ∀ i, i < n → (Memory.read s.mem (a + i)).isSome = true

/-- Every command but `RDSR` makes the checks of the frame (R60, R61). -/
def makesFrameChecks : Instr → Bool
  | .init _ => true
  | .add _ _ _ => true
  | .addi _ _ => true
  | .fin _ => true
  | .getb _ _ => true
  | .geth _ _ => true
  | .rdsr _ _ => false

/-! ### Responses -/

/-- The machine with the response `(code, val)` given and nothing else changed. -/
def answered (s : State) (code : BitVec 4) (val : BitVec 64) : State := s.observe (.response ⟨code, val⟩)

/-- The first error of R147 that applies to the body of a command (items 4 to 6), as its code, or `OK`. -/
def bodyCode (i : Instr) (s : State) : BitVec 4 :=
  match i with
  | .init _ => 0
  | .add e off len =>
    if (s.engine e).closed then 1
    else if s.memBytes < off.toNat + len.toNat then 4
    else if 2 ^ 64 - 1 < (s.engine e).len.toNat + 8 * len.toNat then 5
    else 0
  | .addi e _ =>
    if (s.engine e).closed then 1
    else if 2 ^ 64 - 1 < (s.engine e).len.toNat + 8 then 5
    else 0
  | .fin _ => 0
  | .getb e dst => if s.memBytes < dst.toNat + 4 * e.nw then 4 else 0
  | .geth e dst => if s.memBytes < dst.toNat + 8 * e.nw then 4 else 0
  | .rdsr _ _ => 0

/-- The code of the one error a command reports: the first of R147's order that applies, or `OK`. -/
def firstCode (i : Instr) (s : State) : BitVec 4 :=
  if i.wellFormed = false then 3
  else if makesFrameChecks i = true ∧ (s.engine i.engine).fault = true then 6
  else if makesFrameChecks i = true ∧ 64 ≤ (s.engine i.engine).off.toNat then 2
  else bodyCode i s

/-! ### The digest of a message in one shot -/

/-- The first 64 bytes of a list as a block. -/
def toBlock (l : List Byte) : Block := Vector.ofFn fun i : Fin 64 => l.getD i.val 0

/-- The left fold of `Compress(e, ·, ·)` over the first `n` blocks of a list of bytes (R75). -/
def foldBlocks (e : Engine) (S : Vector Word e.nw) : Nat → List Byte → Vector Word e.nw
  | 0, _ => S
  | n + 1, l => foldBlocks e (compress e S (toBlock l)) n (l.drop 64)

/-- The bytes absorbed and not yet compressed, oldest first: `BUF[e][0 .. OFF[e] − 1]` (R13). -/
def pendingBytes {nw : Nat} (x : EngineState nw) : List Byte := x.buf.toList.take x.off.toNat

/-- One chunk of the document's copy (R81): the bytes of `v`, no more than fit, are copied into the buffer at the
offset at once, and a buffer filled to 64 is compressed. -/
def copyChunk (e : Engine) (x : EngineState e.nw) (v : List Byte) : EngineState e.nw :=
  let buf : Block := Vector.ofFn fun i : Fin 64 =>
    if x.off.toNat ≤ i.val ∧ i.val < x.off.toNat + v.length then v.getD (i.val - x.off.toNat) 0 else x.buf[i]
  if x.off.toNat + v.length = 64 then { x with buf := buf, h := compress e x.h buf, off := 0 }
  else { x with buf := buf, off := x.off + BitVec.ofNat 7 v.length }

/-- `Pad(e, m)` with `Zc = (55 − N) mod 64`, the non-negative remainder (R75). -/
def pad (e : Engine) (m : List Byte) : List Byte :=
  m ++ [0x80] ++ List.replicate ((55 - (m.length : Int)) % 64).toNat 0 ++
    lenField e (BitVec.ofNat 64 (8 * m.length))

/-- The state words of the padded message: the fold over all its blocks, from `IV(e)` (R75). -/
def hashWords (e : Engine) (m : List Byte) : Vector Word e.nw :=
  foldBlocks e (iv e) ((pad e m).length / 64) (pad e m)

/-- The digest of a message (R75, R128). -/
def digestOf (e : Engine) (m : List Byte) : Vector Byte (4 * e.nw) := serialize e (hashWords e m)

/-- Engine `x` is open and holds exactly the message `m` so far (R21 items 2, 3 and 5). -/
structure Holds (e : Engine) (m : List Byte) (x : EngineState e.nw) : Prop where
  notFaulted : x.fault = false
  isOpen : x.closed = false
  len : x.len.toNat = 8 * m.length
  offset : x.off.toNat = m.length % 64
  words : x.h = foldBlocks e (iv e) (m.length / 64) m
  pending : ∀ i, i < m.length % 64 → x.buf[i]? = m[64 * (m.length / 64) + i]?

/-- The commands a list of pieces of a message is submitted by: one `ADDI` a byte (R83). -/
def submitBytes (e : Engine) : List Byte → State → Result
  | [], s => .next s
  | b :: m, s =>
    match exec (.addi e b) s with
    | .next t => submitBytes e m t
    | .fault f => .fault f
    | .refused r => .refused r

end Sys2Proof
end

