-- ==== Sys2Proof/Certificates/Slice0/Obligations.lean ====
section
/-! DEFINITION. The statements for the provers. Each docstring says which rules of spec/ it formalises. -/

open Sys2Proof Sys2Proof.Machine

/-! ### Encoding (30_encoding.md) -/

/-- R50: every well-formed command is what its word decodes to, with every operand at every value. -/
def Obligations.DecodeOfEncode : Prop :=
  ∀ i : Instr, i.wellFormed = true → decode (encode i) = .ok i

/-- R50: a legal word is the one word of what it decodes to, and that is a well-formed command. -/
def Obligations.EncodeOfDecode : Prop :=
  ∀ (w : CmdWord) (i : Instr), decode w = .ok i → encode i = w ∧ i.wellFormed = true

/-- R45: the five fields make up the word by the formula, the `E` bit is 0 for the 128-bit engine and 1 for the
256-bit engine, and the word of a command has the fields of R47's table. -/
def Obligations.WordFormula : Prop :=
  (engineBit .e128 = 0 ∧ engineBit .e256 = 1 ∧ ∀ w : CmdWord, engineBit (engineOf w) = fieldE w) ∧
  (∀ w : CmdWord, w.toNat = (fieldOP w).toNat * 2 ^ 56 + (fieldE w).toNat * 2 ^ 55 + (fieldZ w).toNat * 2 ^ 48 +
      (fieldA w).toNat * 2 ^ 24 + (fieldB w).toNat) ∧
  (∀ e : Engine, (encode (.init e)).toNat = 1 * 2 ^ 56 + (engineBit e).toNat * 2 ^ 55) ∧
  (∀ (e : Engine) (off len : BitVec 24), (encode (.add e off len)).toNat =
      2 * 2 ^ 56 + (engineBit e).toNat * 2 ^ 55 + off.toNat * 2 ^ 24 + len.toNat) ∧
  (∀ (e : Engine) (imm8 : Byte), (encode (.addi e imm8)).toNat =
      3 * 2 ^ 56 + (engineBit e).toNat * 2 ^ 55 + imm8.toNat) ∧
  (∀ e : Engine, (encode (.fin e)).toNat = 4 * 2 ^ 56 + (engineBit e).toNat * 2 ^ 55) ∧
  (∀ (e : Engine) (dst : BitVec 24), (encode (.getb e dst)).toNat =
      5 * 2 ^ 56 + (engineBit e).toNat * 2 ^ 55 + dst.toNat * 2 ^ 24) ∧
  (∀ (e : Engine) (dst : BitVec 24), (encode (.geth e dst)).toNat =
      6 * 2 ^ 56 + (engineBit e).toNat * 2 ^ 55 + dst.toNat * 2 ^ 24) ∧
  (∀ (e : Engine) (sel : BitVec 8), (encode (.rdsr e sel)).toNat =
      7 * 2 ^ 56 + (engineBit e).toNat * 2 ^ 55 + sel.toNat)

/-- R48: match and mask of each command; for `RDSR` the selector must also be legal. -/
def Obligations.MatchAndMask : Prop :=
  ∀ w : CmdWord,
    (decode w = .ok (.init (engineOf w)) ↔ w &&& 0xFF7FFFFFFFFFFFFF = 0x0100000000000000) ∧
    (decode w = .ok (.add (engineOf w) (fieldA w) (fieldB w)) ↔ w &&& 0xFF7F000000000000 = 0x0200000000000000) ∧
    (decode w = .ok (.addi (engineOf w) (fieldBlo w)) ↔ w &&& 0xFF7FFFFFFFFFFF00 = 0x0300000000000000) ∧
    (decode w = .ok (.fin (engineOf w)) ↔ w &&& 0xFF7FFFFFFFFFFFFF = 0x0400000000000000) ∧
    (decode w = .ok (.getb (engineOf w) (fieldA w)) ↔ w &&& 0xFF7F000000FFFFFF = 0x0500000000000000) ∧
    (decode w = .ok (.geth (engineOf w) (fieldA w)) ↔ w &&& 0xFF7F000000FFFFFF = 0x0600000000000000) ∧
    (decode w = .ok (.rdsr (engineOf w) (fieldBlo w)) ↔
      w &&& 0xFF7FFFFFFFFFFF00 = 0x0700000000000000 ∧ legalSel (engineOf w) (fieldBlo w) = true)

/-- R52, R139: a word is illegal exactly in the six cases; then the response is `(3, w)` in every state, faulted and
closed ones included, and no state changes. -/
def Obligations.IllegalExactlyWhen : Prop :=
  (∀ w : CmdWord, (∀ i, decode w ≠ .ok i) ↔
    fieldZ w ≠ 0 ∨
    (fieldOP w = 0x00 ∨ 0x08 ≤ (fieldOP w).toNat) ∨
    ((fieldOP w = 0x01 ∨ fieldOP w = 0x04) ∧ (fieldA w ≠ 0 ∨ fieldB w ≠ 0)) ∨
    (fieldOP w = 0x03 ∧ (fieldA w ≠ 0 ∨ fieldBhi w ≠ 0)) ∨
    (fieldOP w = 0x07 ∧ (fieldA w ≠ 0 ∨ fieldBhi w ≠ 0 ∨
      ¬ ((fieldBlo w).toNat = 0x00 ∨ (fieldBlo w).toNat = 0x01 ∨
        (fieldE w = 0 ∧ 0x10 ≤ (fieldBlo w).toNat ∧ (fieldBlo w).toNat ≤ 0x13) ∨
        (fieldE w = 1 ∧ 0x10 ≤ (fieldBlo w).toNat ∧ (fieldBlo w).toNat ≤ 0x17)))) ∨
    ((fieldOP w = 0x05 ∨ fieldOP w = 0x06) ∧ fieldB w ≠ 0)) ∧
  (∀ (w : CmdWord) (s : State), (∀ i, decode w ≠ .ok i) → execWord w s = .next (answered s 3 w))

/-- R56 (marked derived in the spec): the worked encodings, legal and illegal, decode as the table says, and
the text of each legal one is assembled to its word. -/
def Obligations.WorkedEncodings : Prop :=
  decode 0x0100000000000000 = .ok (.init .e128) ∧ decode 0x0180000000000000 = .ok (.init .e256) ∧
  decode 0x0280000100000003 = .ok (.add .e256 0x000100 3) ∧ decode 0x0200000000000000 = .ok (.add .e128 0 0) ∧
  decode 0x0380000000000061 = .ok (.addi .e256 0x61) ∧ decode 0x0400000000000000 = .ok (.fin .e128) ∧
  decode 0x0580001000000000 = .ok (.getb .e256 0x001000) ∧
  decode 0x0600002000000000 = .ok (.geth .e128 0x002000) ∧
  decode 0x0700000000000001 = .ok (.rdsr .e128 0x01) ∧ decode 0x0780000000000017 = .ok (.rdsr .e256 0x17) ∧
  (∀ i, decode 0x0101000000000000 ≠ .ok i) ∧ (∀ i, decode 0x0700000000000014 ≠ .ok i) ∧
  (∀ i, decode 0x0300000000000100 ≠ .ok i) ∧
  assembleText "INIT E128".toList = .ok 0x0100000000000000 ∧
  assembleText "INIT E256".toList = .ok 0x0180000000000000 ∧
  assembleText "ADD E256, 0x000100, 3".toList = .ok 0x0280000100000003 ∧
  assembleText "ADD E128, 0, 0".toList = .ok 0x0200000000000000 ∧
  assembleText "ADDI E256, 0x61".toList = .ok 0x0380000000000061 ∧
  assembleText "FIN E128".toList = .ok 0x0400000000000000 ∧
  assembleText "GETB E256, 0x001000".toList = .ok 0x0580001000000000 ∧
  assembleText "GETH E128, 0x002000".toList = .ok 0x0600002000000000 ∧
  assembleText "RDSR E128, LEN".toList = .ok 0x0700000000000001 ∧
  assembleText "RDSR E256, H7".toList = .ok 0x0780000000000017

/-- R54, on lines whose text has been read: the command of each mnemonic with operands that fit, in the order of R47's
table; the numbers of the register names; an operand that does not fit, a register name the engine lacks, a register
name outside `RDSR` and a wrong number of operands are rejected. A line that is not rejected is assembled to the word
of its command, which decodes to that command where the engine has the selector. -/
def Obligations.AssemblerFollowsSyntax : Prop :=
  (∀ e : Engine,
    assembleInstr ⟨.init, e, []⟩ = .ok (.init e) ∧ assembleInstr ⟨.fin, e, []⟩ = .ok (.fin e) ∧
    (∀ off len : BitVec 24, assembleInstr ⟨.add, e, [.num off.toNat, .num len.toNat]⟩ = .ok (.add e off len)) ∧
    (∀ b : Byte, assembleInstr ⟨.addi, e, [.num b.toNat]⟩ = .ok (.addi e b)) ∧
    (∀ dst : BitVec 24, assembleInstr ⟨.getb, e, [.num dst.toNat]⟩ = .ok (.getb e dst) ∧
      assembleInstr ⟨.geth, e, [.num dst.toNat]⟩ = .ok (.geth e dst)) ∧
    (∀ sel : BitVec 8, assembleInstr ⟨.rdsr, e, [.num sel.toNat]⟩ = .ok (.rdsr e sel)) ∧
    assembleInstr ⟨.rdsr, e, [.reg .status]⟩ = .ok (.rdsr e 0x00) ∧
    assembleInstr ⟨.rdsr, e, [.reg .len]⟩ = .ok (.rdsr e 0x01) ∧
    (∀ i : Fin 8, i.val < e.nw →
      assembleInstr ⟨.rdsr, e, [.reg (.word i)]⟩ = .ok (.rdsr e (BitVec.ofNat 8 (0x10 + i.val))))) ∧
  (∀ (e : Engine) (w : CmdWord),
    (∀ off len : Nat, (2 ^ 24 ≤ off ∨ 2 ^ 24 ≤ len) → assemble ⟨.add, e, [.num off, .num len]⟩ ≠ .ok w) ∧
    (∀ b : Nat, 2 ^ 8 ≤ b → assemble ⟨.addi, e, [.num b]⟩ ≠ .ok w ∧ assemble ⟨.rdsr, e, [.num b]⟩ ≠ .ok w) ∧
    (∀ dst : Nat, 2 ^ 24 ≤ dst →
      assemble ⟨.getb, e, [.num dst]⟩ ≠ .ok w ∧ assemble ⟨.geth, e, [.num dst]⟩ ≠ .ok w) ∧
    (∀ i : Fin 8, e.nw ≤ i.val → assemble ⟨.rdsr, e, [.reg (.word i)]⟩ ≠ .ok w)) ∧
  (∀ (l : AsmLine) (w : CmdWord), assemble l = .ok w →
    l.operands.length = operandCount l.mnemonic ∧
    (l.mnemonic ≠ .rdsr → ∀ r, .reg r ∉ l.operands) ∧
    ∃ i, assembleInstr l = .ok i ∧ i.engine = l.engine ∧ w = encode i ∧ (i.wellFormed = true → decode w = .ok i))

/-! ### The step (00_scope.md R6, 40_commands.md R60) -/

/-- 00_scope.md R6, 40_commands.md R60: the step runs the decoded command and adds nothing around `exec` of it. Where
the word comes from is the model's choice: the host's list `inputs` (log 1, DESIGN CHOICE), and for a table word
`withFetchWord`, which stands for the host issuing it (log 2, DESIGN CHOICE). -/
def Obligations.StepRunsTheCommand : Prop :=
  (∀ (s : State) (w : CmdWord) (rest : List HostAct) (i : Instr), s.inputs = .command w :: rest →
    decode w = .ok i → step s = exec i (s.setInputs rest)) ∧
  (∀ (s : State) (nbits w : Nat) (i : Instr), decodeTableWord nbits w = some i →
    step (s.withFetchWord nbits w) = exec i s)

/-- With no action of the host left the step holds all state (the model's reading of
70_reset_and_hazards.md section 5; log 13, DEDUCED). -/
def Obligations.IdleStepHoldsState : Prop :=
  ∀ s : State, s.inputs = [] → step s = .next s

/-- The host's writes and reads of `MEM` between commands (20_memory.md sections 1 and 5): a write changes one byte,
a read changes nothing and gives the byte; an address that does not exist, or that nothing has written, faults
(the model's choice, logs 4 and 12). -/
def Obligations.HostAccessesMemory : Prop :=
  (∀ (s : State) (a : Nat) (b : Byte) (rest : List HostAct), s.inputs = .write a b :: rest →
    (a < s.memBytes → ∃ t, step s = .next t ∧ Memory.read t.mem a = some b ∧
      (∀ a', a' ≠ a → Memory.read t.mem a' = Memory.read s.mem a') ∧ t.e128 = s.e128 ∧ t.e256 = s.e256 ∧
      t.memBytes = s.memBytes ∧ t.inputs = rest ∧ t.outputs = s.outputs) ∧
    (s.memBytes ≤ a → step s = .fault (.noSuchAddress a))) ∧
  (∀ (s : State) (a : Nat) (rest : List HostAct), s.inputs = .read a :: rest →
    (∀ b, a < s.memBytes → Memory.read s.mem a = some b →
      step s = .next ((s.setInputs rest).observe (.byte a b))) ∧
    (a < s.memBytes → Memory.read s.mem a = none → step s = .fault (.unwrittenByte a)) ∧
    (s.memBytes ≤ a → step s = .fault (.noSuchAddress a)))

/-! ### Reset (10_state.md R24, 70_reset_and_hazards.md R155) -/

/-- 10_state.md section 10: the values the spec gives for reset, in the machine right after power-up; and no byte of
`MEM` has a value there (the model's choice, log 4). Nothing is said of `BUF` and `DIGEST`. -/
def Obligations.PowerUpValues : Prop :=
  State.reset.e128.h = #v[0x67452301, 0xEFCDAB89, 0x98BADCFE, 0x10325476] ∧
  State.reset.e256.h = #v[0x6A09E667, 0xBB67AE85, 0x3C6EF372, 0xA54FF53A, 0x510E527F, 0x9B05688C, 0x1F83D9AB,
    0x5BE0CD19] ∧
  (∀ e, (State.reset.engine e).off = 0 ∧ (State.reset.engine e).len = 0 ∧
    (State.reset.engine e).closed = false ∧ (State.reset.engine e).fault = false) ∧
  (∀ a, Memory.read State.reset.mem a = none)

/-- R155: reset gives both engines their reset values and leaves `MEM` alone; reset is the only thing that clears
`FAULT[e]`. -/
def Obligations.ResetConstructsBothEngines : Prop :=
  (∀ (s : State) (rest : List HostAct), s.inputs = .reset :: rest → ∃ t, step s = .next t ∧
    t.e128.h = #v[0x67452301, 0xEFCDAB89, 0x98BADCFE, 0x10325476] ∧
    t.e256.h = #v[0x6A09E667, 0xBB67AE85, 0x3C6EF372, 0xA54FF53A, 0x510E527F, 0x9B05688C, 0x1F83D9AB,
      0x5BE0CD19] ∧
    (∀ e, (t.engine e).off = 0 ∧ (t.engine e).len = 0 ∧ (t.engine e).closed = false ∧
      (t.engine e).fault = false) ∧
    t.mem = s.mem ∧ t.memBytes = s.memBytes ∧ t.inputs = rest ∧ t.outputs = s.outputs) ∧
  (∀ (s t : State) (e : Engine), (∀ rest, s.inputs ≠ .reset :: rest) →
    (∀ w rest, s.inputs ≠ .resetDuring w :: rest) → step s = .next t →
    (s.engine e).fault = true → (t.engine e).fault = true)

/-- R157: a reset during a command abandons it: no response, both engines at their reset values, and each byte of
`MEM` its old value, or, in the destination range of a `GETB` or `GETH`, the value the command would have written. It
holds for every value of the free choice (log 7). -/
def Obligations.ResetDuringCommand : Prop :=
  ∀ (s : State) (w : CmdWord) (rest : List HostAct), s.inputs = .resetDuring w :: rest → ∃ t, step s = .next t ∧
    t.e128.h = #v[0x67452301, 0xEFCDAB89, 0x98BADCFE, 0x10325476] ∧
    t.e256.h = #v[0x6A09E667, 0xBB67AE85, 0x3C6EF372, 0xA54FF53A, 0x510E527F, 0x9B05688C, 0x1F83D9AB,
      0x5BE0CD19] ∧
    (∀ e, (t.engine e).off = 0 ∧ (t.engine e).len = 0 ∧ (t.engine e).closed = false ∧
      (t.engine e).fault = false) ∧
    t.memBytes = s.memBytes ∧ t.inputs = rest ∧ t.outputs = s.outputs ∧
    (∀ a, Memory.read t.mem a = Memory.read s.mem a ∨
      ∃ (e : Engine) (dst : BitVec 24) (u : State), execWord w (s.setInputs rest) = .next u ∧
        Memory.read t.mem a = Memory.read u.mem a ∧
        ((decode w = .ok (.getb e dst) ∧ dst.toNat ≤ a ∧ a < dst.toNat + 4 * e.nw) ∨
          (decode w = .ok (.geth e dst) ∧ dst.toNat ≤ a ∧ a < dst.toNat + 2 * (4 * e.nw))))

/-! ### Invariants (10_state.md R20, R21) -/

/-- The invariant of the machine holds right after reset: of R21 (marked derived in the spec) what StepKeepsInvariant
lists, and the canonical form of `MEM`. -/
def Obligations.InvariantAtReset : Prop := MachineInv State.reset

/-- Of R21 (marked derived in the spec): items 1 and 4; of item 2 that `LEN` is a whole number of bytes; of item 3 that
`OFF = (LEN / 8) mod 64` while open. With them the canonical form of `MEM`. Every step keeps them, from every state
that meets them. That `LEN` counts the accepted bytes, the number of blocks, `BUF[0 .. OFF - 1]` and item 5 are in
AcceptedBytesAreHeld. -/
def Obligations.StepKeepsInvariant : Prop :=
  ∀ s t : State, MachineInv s → step s = .next t → MachineInv t

/-- The canonical form of `MEM`, its bounds and the size of the address space are kept by every step from every
state that has them, whatever the engines hold. -/
def Obligations.StepKeepsMemoryCanonical : Prop :=
  ∀ s t : State, MemoryOk s → step s = .next t → MemoryOk t ∧ t.memBytes = s.memBytes

/-- 60_exceptions.md R141: from a state that meets the invariant of R21 no command answers `InvariantViolation` or
`EngineFaulted`; and the exit assertion of `Finalize` cannot fail where the engine has passed the frame, so there, in
every state, no command answers `InvariantViolation`. -/
def Obligations.DefectErrorsUnreachable : Prop :=
  (∀ (s t : State) (w : CmdWord) (r : Response), MachineInv s → execWord w s = .next t →
    t.outputs = .response r :: s.outputs → r.code ≠ 2 ∧ r.code ≠ 6) ∧
  (∀ (i : Instr) (s t : State) (r : Response), Ready s i.engine → exec i s = .next t →
    t.outputs = .response r :: s.outputs → r.code ≠ 2)

/-- R20: `INIT` gives Open; a finalizing command that succeeds gives Closed; a submission or `RDSR` keeps the
condition; nothing a command does leaves Faulted; a command never changes the other engine's condition. -/
def Obligations.ConditionTransitions : Prop :=
  (∀ (s t : State) (e : Engine), Ready s e → exec (.init e) s = .next t →
    condition (t.engine e) = .opened) ∧
  (∀ (s t : State) (e : Engine) (i : Instr) (dst : BitVec 24), (i = .fin e ∨ i = .getb e dst ∨ i = .geth e dst) →
    Ready s e → bodyCode i s = 0 → exec i s = .next t → condition (t.engine e) = .closed) ∧
  (∀ (s t : State) (e : Engine) (i : Instr) (off len : BitVec 24) (b sel : Byte),
    (i = .add e off len ∨ i = .addi e b ∨ i = .rdsr e sel) → Ready s e → exec i s = .next t →
    condition (t.engine e) = condition (s.engine e)) ∧
  (∀ (s t : State) (i : Instr), exec i s = .next t →
    (condition (s.engine i.engine) = .faulted → condition (t.engine i.engine) = .faulted) ∧
    condition (t.engine i.engine.other) = condition (s.engine i.engine.other))

/-! ### Responses and errors (60_exceptions.md, 40_commands.md) -/

/-- R46: every command returns one response; its code is one of the seven; on an error `val` is the command word; on
`OK` it is the register for `RDSR` and 0 for every other command. -/
def Obligations.OneResponsePerCommand : Prop :=
  ∀ (w : CmdWord) (s t : State), execWord w s = .next t → ∃ r : Response,
    t.outputs = .response r :: s.outputs ∧ r.code.toNat ≤ 6 ∧ (r.code ≠ 0 → r.val = w) ∧
    (r.code = 0 → ∃ i, decode w = .ok i ∧
      (∀ e sel, i = .rdsr e sel → statusRegister e sel (s.engine e) = some r.val) ∧
      ((∀ e sel, i ≠ .rdsr e sel) → r.val = 0))

/-- R147: exactly one error is reported, the first in the order; the code of the response is that of the first check
that fails, and `OK` where none does. -/
def Obligations.FirstErrorWins : Prop :=
  (∀ (w : CmdWord) (s : State), (∀ i, decode w ≠ .ok i) → execWord w s = .next (answered s 3 w)) ∧
  (∀ (w : CmdWord) (i : Instr) (s t : State), decode w = .ok i → execWord w s = .next t →
    ∃ v, t.outputs = .response ⟨firstCode i s, v⟩ :: s.outputs)

/-- R145: every command but `RDSR` that names a faulted engine answers `(6, cmd)` and changes nothing, `INIT`
included. -/
def Obligations.FaultedEngineRefusesCommands : Prop :=
  ∀ (w : CmdWord) (i : Instr) (s : State), decode w = .ok i → makesFrameChecks i = true →
    (s.engine i.engine).fault = true → execWord w s = .next (answered s 6 w)

/-- R141 (a): every command but `RDSR` that finds `OFF[e] ≥ 64` sets `FAULT[e]`, answers `(2, cmd)` and changes
nothing else, `INIT` included. -/
def Obligations.BadOffsetFaultsEngine : Prop :=
  ∀ (w : CmdWord) (i : Instr) (s : State), decode w = .ok i → makesFrameChecks i = true →
    (s.engine i.engine).fault = false → 64 ≤ (s.engine i.engine).off.toNat →
    execWord w s = .next (answered (s.setEngine i.engine { s.engine i.engine with fault := true }) 2 w)

/-- R140: `ADD`, also of no bytes, and `ADDI` on a closed engine answer `(1, cmd)` and change nothing; no other
command answers `UseAfterClose`. -/
def Obligations.SubmissionAfterCloseIsRefused : Prop :=
  (∀ (s : State) (e : Engine), Ready s e → (s.engine e).closed = true →
    (∀ (w : CmdWord) (off len : BitVec 24), decode w = .ok (.add e off len) →
      execWord w s = .next (answered s 1 w)) ∧
    (∀ (w : CmdWord) (b : Byte), decode w = .ok (.addi e b) → execWord w s = .next (answered s 1 w))) ∧
  (∀ (i : Instr) (s t : State) (r : Response), (∀ e off len, i ≠ .add e off len) → (∀ e b, i ≠ .addi e b) →
    exec i s = .next t → t.outputs = .response r :: s.outputs → r.code ≠ 1)

/-- R143: a range that passes `MEM_BYTES` answers `(4, cmd)` before anything is read, written or changed; `GETB` and
`GETH` leave an open engine open. -/
def Obligations.RangePastMemoryIsRefused : Prop :=
  ∀ (s : State) (e : Engine), Ready s e →
    (∀ (w : CmdWord) (off len : BitVec 24), decode w = .ok (.add e off len) → (s.engine e).closed = false →
      s.memBytes < off.toNat + len.toNat → execWord w s = .next (answered s 4 w)) ∧
    (∀ (w : CmdWord) (dst : BitVec 24), decode w = .ok (.getb e dst) → s.memBytes < dst.toNat + 4 * e.nw →
      execWord w s = .next (answered s 4 w)) ∧
    (∀ (w : CmdWord) (dst : BitVec 24), decode w = .ok (.geth e dst) → s.memBytes < dst.toNat + 2 * (4 * e.nw) →
      execWord w s = .next (answered s 4 w))

/-- R144: a submission that would take `LEN[e]` past `2^64 − 1` answers `(5, cmd)` and changes nothing. -/
def Obligations.LengthOverflowIsRefused : Prop :=
  ∀ (s : State) (e : Engine), Ready s e → (s.engine e).closed = false →
    (∀ (w : CmdWord) (off len : BitVec 24), decode w = .ok (.add e off len) →
      off.toNat + len.toNat ≤ s.memBytes → 2 ^ 64 - 1 < (s.engine e).len.toNat + 8 * len.toNat →
      execWord w s = .next (answered s 5 w)) ∧
    (∀ (w : CmdWord) (b : Byte), decode w = .ok (.addi e b) → 2 ^ 64 - 1 < (s.engine e).len.toNat + 8 →
      execWord w s = .next (answered s 5 w))

/-- 20_memory.md section 5 (3), 10_state.md R10: a command neither changes nor reads the other engine, so what it
does is the same whatever the other engine holds. -/
def Obligations.EnginesAreIndependent : Prop :=
  (∀ (i : Instr) (s t : State), exec i s = .next t → t.engine i.engine.other = s.engine i.engine.other) ∧
  (∀ (i : Instr) (s t : State) (y : EngineState i.engine.other.nw), exec i s = .next t →
    exec i (s.setEngine i.engine.other y) = .next (t.setEngine i.engine.other y))

/-! ### INIT and RDSR (40_commands.md) -/

/-- R62: on a ready engine `INIT` answers `(OK, 0)` with the engine as at construction; `BUF`, `DIGEST`, `FAULT`,
the other engine and `MEM` keep what they hold. -/
def Obligations.InitMakesEngineNew : Prop :=
  ∀ (s : State) (e : Engine), Ready s e → ∃ t, exec (.init e) s = .next t ∧
    (t.engine e).h = iv e ∧ (t.engine e).off = 0 ∧ (t.engine e).len = 0 ∧ (t.engine e).closed = false ∧
    (t.engine e).fault = (s.engine e).fault ∧ (t.engine e).buf = (s.engine e).buf ∧
    (t.engine e).digest = (s.engine e).digest ∧ t.engine e.other = s.engine e.other ∧
    t.mem = s.mem ∧ t.memBytes = s.memBytes ∧ t.inputs = s.inputs ∧
    t.outputs = .response ⟨0, 0⟩ :: s.outputs

/-- R63, R19: `RDSR` of a legal selector answers the register as a number, in every state, and changes nothing; of a
selector the engine lacks it is an illegal command (the model's choice for that term, log 10, DEDUCED). -/
def Obligations.RdsrReadsRegister : Prop :=
  ∀ (s : State) (e : Engine),
    (∃ v : BitVec 64, v.toNat = (if (s.engine e).closed then 1 else 0) + 2 * (if (s.engine e).fault then 1 else 0) +
        256 * (s.engine e).off.toNat ∧ exec (.rdsr e 0x00) s = .next (answered s 0 v)) ∧
    exec (.rdsr e 0x01) s = .next (answered s 0 (s.engine e).len) ∧
    (∀ i : Fin e.nw, ∃ v : BitVec 64, v.toNat = (s.engine e).h[i].toNat ∧
      exec (.rdsr e (BitVec.ofNat 8 (0x10 + i.val))) s = .next (answered s 0 v)) ∧
    (∀ sel : BitVec 8, legalSel e sel = false →
      exec (.rdsr e sel) s = .next (answered s 3 (encode (.rdsr e sel))))

/-! ### ADD and ADDI (42_incremental_buffer.md) -/

/-- R82: where its checks pass and its bytes have been written, `ADD` answers `(OK, 0)`; `LEN` rises by 8 per byte,
`OFF` is `(OFF + len) mod 64`, `H` is the fold of `Compress` over the whole blocks of the pending bytes and the new
bytes, the rest of the bytes is pending; nothing else changes. -/
def Obligations.AddSubmitsBytes : Prop :=
  ∀ (s : State) (e : Engine) (off len : BitVec 24), Ready s e → (s.engine e).closed = false →
    off.toNat + len.toNat ≤ s.memBytes → (s.engine e).len.toNat + 8 * len.toNat ≤ 2 ^ 64 - 1 →
    Written s off.toNat len.toNat →
    ∃ (t : State) (v : List Byte), exec (.add e off len) s = .next t ∧ v.length = len.toNat ∧
      (∀ i, i < len.toNat → Memory.read s.mem (off.toNat + i) = v[i]?) ∧
      (t.engine e).len.toNat = (s.engine e).len.toNat + 8 * len.toNat ∧
      (t.engine e).off.toNat = ((s.engine e).off.toNat + len.toNat) % 64 ∧
      (t.engine e).h = foldBlocks e (s.engine e).h (((s.engine e).off.toNat + len.toNat) / 64)
        (pendingBytes (s.engine e) ++ v) ∧
      pendingBytes (t.engine e) =
        (pendingBytes (s.engine e) ++ v).drop (64 * (((s.engine e).off.toNat + len.toNat) / 64)) ∧
      (t.engine e).closed = false ∧ (t.engine e).fault = false ∧ (t.engine e).digest = (s.engine e).digest ∧
      t.engine e.other = s.engine e.other ∧ t.mem = s.mem ∧ t.memBytes = s.memBytes ∧ t.inputs = s.inputs ∧
      t.outputs = .response ⟨0, 0⟩ :: s.outputs

/-- R83: where its checks pass, `ADDI` answers `(OK, 0)` and submits its one byte; at `OFF = 63` it compresses one
block and leaves `OFF = 0`; nothing else changes. -/
def Obligations.AddiSubmitsByte : Prop :=
  ∀ (s : State) (e : Engine) (b : Byte), Ready s e → (s.engine e).closed = false →
    (s.engine e).len.toNat + 8 ≤ 2 ^ 64 - 1 →
    ∃ t, exec (.addi e b) s = .next t ∧ (t.engine e).len.toNat = (s.engine e).len.toNat + 8 ∧
      ((s.engine e).off.toNat ≤ 62 → (t.engine e).off.toNat = (s.engine e).off.toNat + 1 ∧
        (t.engine e).h = (s.engine e).h ∧ pendingBytes (t.engine e) = pendingBytes (s.engine e) ++ [b]) ∧
      ((s.engine e).off.toNat = 63 → (t.engine e).off = 0 ∧
        (t.engine e).h = compress e (s.engine e).h (toBlock (pendingBytes (s.engine e) ++ [b]))) ∧
      (t.engine e).closed = false ∧ (t.engine e).fault = false ∧ (t.engine e).digest = (s.engine e).digest ∧
      t.engine e.other = s.engine e.other ∧ t.mem = s.mem ∧ t.memBytes = s.memBytes ∧ t.inputs = s.inputs ∧
      t.outputs = .response ⟨0, 0⟩ :: s.outputs

/-- The model's choice (log 4, DESIGN CHOICE, after 70_reset_and_hazards.md R162): an `ADD` whose checks pass and whose
range holds a byte nothing has written faults at the first such byte. -/
def Obligations.AddFaultsOnUnwrittenByte : Prop :=
  ∀ (s : State) (e : Engine) (off len : BitVec 24) (k : Nat), Ready s e → (s.engine e).closed = false →
    off.toNat + len.toNat ≤ s.memBytes → (s.engine e).len.toNat + 8 * len.toNat ≤ 2 ^ 64 - 1 →
    k < len.toNat → Written s off.toNat k → Memory.read s.mem (off.toNat + k) = none →
    exec (.add e off len) s = .fault (.unwrittenByte (off.toNat + k))

/-- R83: `ADDI e, x` has exactly the effect on the engine of `ADD e, p, 1` with `MEM[p] = x`, in every state, with
the same code, and both leave the rest of the machine alike. -/
def Obligations.AddiActsAsAddOfOneByte : Prop :=
  ∀ (s : State) (e : Engine) (x : Byte) (p : BitVec 24), p.toNat < s.memBytes →
    Memory.read s.mem p.toNat = some x → ∃ t u c v w, exec (.addi e x) s = .next t ∧
      exec (.add e p 1) s = .next u ∧ t.e128 = u.e128 ∧ t.e256 = u.e256 ∧ t.mem = u.mem ∧
      t.outputs = .response ⟨c, v⟩ :: s.outputs ∧ u.outputs = .response ⟨c, w⟩ :: s.outputs

/-- The frame of `ADD` and `ADDI`, in every state: `CLOSED`, `DIGEST`, the other engine, `MEM`, its size and the
host's list are unchanged; `FAULT` too, but where the entry check sets it; one response is added. -/
def Obligations.SubmissionFrame : Prop :=
  ∀ (s t : State) (e : Engine) (i : Instr) (off len : BitVec 24) (b : Byte),
    (i = .add e off len ∨ i = .addi e b) → exec i s = .next t →
    (t.engine e).closed = (s.engine e).closed ∧ (t.engine e).digest = (s.engine e).digest ∧
    ((s.engine e).off.toNat ≤ 63 → (t.engine e).fault = (s.engine e).fault) ∧
    t.engine e.other = s.engine e.other ∧ t.mem = s.mem ∧ t.memBytes = s.memBytes ∧ t.inputs = s.inputs ∧
    ∃ r, t.outputs = .response r :: s.outputs

/-- R84: the counter counts input accepted: a successful `ADD` raises `LEN` by exactly `8 × len`, a successful `ADDI`
by 8, a failed one by nothing, and the tail bytes of the finalizing commands add nothing. -/
def Obligations.CounterCountsInput : Prop :=
  (∀ (s t : State) (e : Engine) (off len : BitVec 24) (r : Response), exec (.add e off len) s = .next t →
    t.outputs = .response r :: s.outputs → (t.engine e).len.toNat =
      (s.engine e).len.toNat + (if r.code = 0 then 8 * len.toNat else 0)) ∧
  (∀ (s t : State) (e : Engine) (b : Byte) (r : Response), exec (.addi e b) s = .next t →
    t.outputs = .response r :: s.outputs → (t.engine e).len.toNat =
      (s.engine e).len.toNat + (if r.code = 0 then 8 else 0)) ∧
  (∀ (s t : State) (e : Engine) (i : Instr) (dst : BitVec 24), (i = .fin e ∨ i = .getb e dst ∨ i = .geth e dst) →
    exec i s = .next t → (t.engine e).len = (s.engine e).len)

/-- R81 (marked derived in the spec): copying a chunk that fits at once and then testing for 64 leaves the same engine as `Absorb` on each of its
bytes. -/
def Obligations.ChunkCopyIsAbsorb : Prop :=
  ∀ (e : Engine) (x : EngineState e.nw) (v : List Byte), x.off.toNat ≤ 63 → v.length ≤ 64 - x.off.toNat →
    copyChunk e x v = absorbAll e x v

/-- R85 (marked derived in the spec), for a split in two: one `ADD` of `n + k` bytes leaves the engine as two `ADD` commands of the same bytes. -/
def Obligations.ChunkingInvariance : Prop :=
  ∀ (s : State) (e : Engine) (off n k : BitVec 24), Ready s e → (s.engine e).closed = false →
    n.toNat + k.toNat < 2 ^ 24 → off.toNat + n.toNat < 2 ^ 24 → off.toNat + n.toNat + k.toNat ≤ s.memBytes →
    (s.engine e).len.toNat + 8 * (n.toNat + k.toNat) ≤ 2 ^ 64 - 1 → Written s off.toNat (n.toNat + k.toNat) →
    ∃ t u v, exec (.add e off (n + k)) s = .next t ∧ exec (.add e off n) s = .next u ∧
      exec (.add e (off + n) k) u = .next v ∧ v.engine e = t.engine e

/-! ### The Padder (41_padding_engine.md) -/

/-- R72: the tail has `T` bytes: `0x80`, `T − 9` zero bytes, the length field; the pad proper is 8 to 512 bits. -/
def Obligations.TailLayout : Prop :=
  ∀ (e : Engine) (off : BitVec 7) (L : BitVec 64), off.toNat ≤ 63 →
    ∃ T, T = (if 64 - off.toNat < 9 then 64 - off.toNat + 64 else 64 - off.toNat) ∧
      (tail e off L).length = T ∧ (tail e off L)[0]? = some 0x80 ∧
      (∀ k, 1 ≤ k → k < T - 8 → (tail e off L)[k]? = some 0) ∧ (tail e off L).drop (T - 8) = lenField e L ∧
      8 ≤ 8 * (T - 8) ∧ 8 * (T - 8) ≤ 512

/-- R73: the length field is the eight bytes of `L`, most significant first for `E256`, least significant first for
`E128`. -/
def Obligations.LengthFieldByteOrder : Prop :=
  ∀ L : BitVec 64, (lenField .e256 L).length = 8 ∧ (lenField .e128 L).length = 8 ∧ ∀ k, k < 8 →
    ((lenField .e256 L).getD k 0).toNat = L.toNat / 256 ^ (7 - k) % 256 ∧
    ((lenField .e128 L).getD k 0).toNat = L.toNat / 256 ^ k % 256

/-- R74 (marked derived in the spec): the tail as a function of the offset, the blocks compressed during finalization, and the buffer empty after
it. -/
def Obligations.TailByOffset : Prop :=
  ∀ (e : Engine) (x : EngineState e.nw), x.off.toNat ≤ 63 →
    (x.off.toNat ≤ 55 → (tail e x.off x.len).length = 64 - x.off.toNat ∧
      tail e x.off x.len = 0x80 :: (List.replicate (55 - x.off.toNat) 0 ++ lenField e x.len) ∧
      (absorbTail e x).h = foldBlocks e x.h 1 (pendingBytes x ++ tail e x.off x.len)) ∧
    (56 ≤ x.off.toNat → (tail e x.off x.len).length = 128 - x.off.toNat ∧
      tail e x.off x.len = 0x80 :: (List.replicate (119 - x.off.toNat) 0 ++ lenField e x.len) ∧
      (absorbTail e x).h = foldBlocks e x.h 2 (pendingBytes x ++ tail e x.off x.len)) ∧
    (absorbTail e x).off = 0

/-! ### The schedulers (43_message_scheduler.md) -/

/-- 00_scope.md R8: `ROTL32`, `ROTR32` and `SHR32` are the arithmetic formulas, for every amount strictly between 0
and 32. -/
def Obligations.RotateFormulas : Prop :=
  ∀ (x : Word) (n : Nat), 0 < n → n < 32 →
    (rotl32 x n).toNat = (x.toNat * 2 ^ n % 2 ^ 32) ||| (x.toNat / 2 ^ (32 - n)) ∧
    rotr32 x n = rotl32 x (32 - n) ∧ (shr32 x n).toNat = x.toNat / 2 ^ n ∧
    (∀ i, i < 32 → (rotl32 x n).getLsbD ((i + n) % 32) = x.getLsbD i)

/-- R90: the sixteen little-endian words. -/
def Obligations.Decode128LittleEndian : Prop :=
  ∀ (blk : Block) (j : Fin 16), (decode128 blk)[j].toNat =
    (blk.toList.getD (4 * j.val) 0).toNat + 2 ^ 8 * (blk.toList.getD (4 * j.val + 1) 0).toNat +
      2 ^ 16 * (blk.toList.getD (4 * j.val + 2) 0).toNat + 2 ^ 24 * (blk.toList.getD (4 * j.val + 3) 0).toNat

/-- R91: the word index of each round, and each group of rounds uses each of the sixteen words exactly once. -/
def Obligations.WordOrder128 : Prop :=
  (∀ i : Fin 64, (wIndex128 i).val =
    if i.val ≤ 15 then i.val else if i.val ≤ 31 then (5 * i.val + 1) % 16
    else if i.val ≤ 47 then (3 * i.val + 5) % 16 else 7 * i.val % 16) ∧
  (∀ (g : Fin 4) (k : Fin 16), ∃! i : Fin 64, i.val / 16 = g.val ∧ wIndex128 i = k)

/-- R92, R93: the sixteen big-endian words, then the recurrence for every later word. -/
def Obligations.Schedule256Recurrence : Prop :=
  ∀ (blk : Block) (t : Nat), (t < 16 → ((schedule256 blk).toList.getD t 0).toNat =
      2 ^ 24 * (blk.toList.getD (4 * t) 0).toNat + 2 ^ 16 * (blk.toList.getD (4 * t + 1) 0).toNat +
        2 ^ 8 * (blk.toList.getD (4 * t + 2) 0).toNat + (blk.toList.getD (4 * t + 3) 0).toNat) ∧
    (16 ≤ t → t < 64 → (schedule256 blk).toList.getD t 0 =
      smallSigma1 ((schedule256 blk).toList.getD (t - 2) 0) + (schedule256 blk).toList.getD (t - 7) 0 +
        smallSigma0 ((schedule256 blk).toList.getD (t - 15) 0) + (schedule256 blk).toList.getD (t - 16) 0)

/-- R94, R113: the four sigma functions bit by bit (bit `i` of a right rotation by `n` is bit `i + n` modulo 32; a
shift fills with zeros). -/
def Obligations.SigmaFunctionsBitwise : Prop :=
  ∀ (x : Word) (i : Nat), i < 32 →
    (smallSigma0 x).getLsbD i =
      ((x.getLsbD ((i + 7) % 32) ^^ x.getLsbD ((i + 18) % 32)) ^^ x.getLsbD (i + 3)) ∧
    (smallSigma1 x).getLsbD i =
      ((x.getLsbD ((i + 17) % 32) ^^ x.getLsbD ((i + 19) % 32)) ^^ x.getLsbD (i + 10)) ∧
    (bigSigma0 x).getLsbD i =
      ((x.getLsbD ((i + 2) % 32) ^^ x.getLsbD ((i + 13) % 32)) ^^ x.getLsbD ((i + 22) % 32)) ∧
    (bigSigma1 x).getLsbD i =
      ((x.getLsbD ((i + 6) % 32) ^^ x.getLsbD ((i + 11) % 32)) ^^ x.getLsbD ((i + 25) % 32))

/-! ### The compression functions (44_hash_compressor_128bit.md, 45_hash_compressor_256bit.md) -/

/-- R103: the auxiliary functions bit by bit, and the round group that uses each. -/
def Obligations.AuxFunctionsBitwise : Prop :=
  ∀ (r : Fin 64) (x y z : Word) (i : Nat), i < 32 →
    (r.val < 16 → (aux128 r x y z).getLsbD i = if x.getLsbD i then y.getLsbD i else z.getLsbD i) ∧
    (16 ≤ r.val → r.val < 32 → (aux128 r x y z).getLsbD i = if z.getLsbD i then x.getLsbD i else y.getLsbD i) ∧
    (32 ≤ r.val → r.val < 48 → (aux128 r x y z).getLsbD i = ((x.getLsbD i ^^ y.getLsbD i) ^^ z.getLsbD i)) ∧
    (48 ≤ r.val → (aux128 r x y z).getLsbD i = (y.getLsbD i ^^ (x.getLsbD i || !z.getLsbD i)))

/-- R104, R105: the 128-bit compression is 64 rounds from the state words, each round as the rule writes it, and the
final addition of the words at entry. Its round constants are the table of R101, which R101 calls its normative form;
its rotate amounts are the four rows of R102. -/
def Obligations.Compress128Rounds : Prop :=
  (k128.toList =
    [0xD76AA478, 0xE8C7B756, 0x242070DB, 0xC1BDCEEE, 0xF57C0FAF, 0x4787C62A, 0xA8304613, 0xFD469501,
      0x698098D8, 0x8B44F7AF, 0xFFFF5BB1, 0x895CD7BE, 0x6B901122, 0xFD987193, 0xA679438E, 0x49B40821] ++
    [0xF61E2562, 0xC040B340, 0x265E5A51, 0xE9B6C7AA, 0xD62F105D, 0x02441453, 0xD8A1E681, 0xE7D3FBC8,
      0x21E1CDE6, 0xC33707D6, 0xF4D50D87, 0x455A14ED, 0xA9E3E905, 0xFCEFA3F8, 0x676F02D9, 0x8D2A4C8A] ++
    [0xFFFA3942, 0x8771F681, 0x6D9D6122, 0xFDE5380C, 0xA4BEEA44, 0x4BDECFA9, 0xF6BB4B60, 0xBEBFBC70,
      0x289B7EC6, 0xEAA127FA, 0xD4EF3085, 0x04881D05, 0xD9D4D039, 0xE6DB99E5, 0x1FA27CF8, 0xC4AC5665] ++
    [0xF4292244, 0x432AFF97, 0xAB9423A7, 0xFC93A039, 0x655B59C3, 0x8F0CCC92, 0xFFEFF47D, 0x85845DD1,
      0x6FA87E4F, 0xFE2CE6E0, 0xA3014314, 0x4E0811A1, 0xF7537E82, 0xBD3AF235, 0x2AD7D2BB, 0xEB86D391]) ∧
  (∀ i : Fin 64, s128 i = (([[7, 12, 17, 22], [5, 9, 14, 20], [4, 11, 16, 23], [6, 10, 15, 21]] :
    List (List Nat)).getD (i.val / 16) []).getD (i.val % 4) 0) ∧
  ∀ (S : Vector Word 4) (blk : Block), ∃ v : Nat → Work128,
    v 0 = ⟨S[0], S[1], S[2], S[3]⟩ ∧
    (∀ i : Fin 64, (v (i.val + 1)).a = (v i.val).d ∧ (v (i.val + 1)).c = (v i.val).b ∧
      (v (i.val + 1)).d = (v i.val).c ∧
      (v (i.val + 1)).b = (v i.val).b + rotl32 ((v i.val).a + aux128 i (v i.val).b (v i.val).c (v i.val).d +
        k128[i] + (decode128 blk)[wIndex128 i]) (s128 i)) ∧
    compress128 S blk = #v[S[0] + (v 64).a, S[1] + (v 64).b, S[2] + (v 64).c, S[3] + (v 64).d]

/-- R114: `Ch` takes the bit of `f` where `e` has a 1 and of `g` where it has a 0; `Maj` is the value at least two of
the bits have. -/
def Obligations.ChMajBitwise : Prop :=
  ∀ (x y z : Word) (i : Nat), i < 32 →
    (ch x y z).getLsbD i = (if x.getLsbD i then y.getLsbD i else z.getLsbD i) ∧
    ((maj x y z).getLsbD i = true ↔ 2 ≤ (x.getLsbD i).toNat + (y.getLsbD i).toNat + (z.getLsbD i).toNat)

/-- R115, R116: the 256-bit compression is 64 rounds from the state words, each round as the rule writes it, and the
final addition of the words at entry. R112: its round constants are the table, and constant `t` is the first 32 bits
of the fractional part of the cube root of prime number `t` (`n` is the whole part of `2^32` times that root). -/
def Obligations.Compress256Rounds : Prop :=
  (k256.toList =
    [0x428A2F98, 0x71374491, 0xB5C0FBCF, 0xE9B5DBA5, 0x3956C25B, 0x59F111F1, 0x923F82A4, 0xAB1C5ED5,
      0xD807AA98, 0x12835B01, 0x243185BE, 0x550C7DC3, 0x72BE5D74, 0x80DEB1FE, 0x9BDC06A7, 0xC19BF174] ++
    [0xE49B69C1, 0xEFBE4786, 0x0FC19DC6, 0x240CA1CC, 0x2DE92C6F, 0x4A7484AA, 0x5CB0A9DC, 0x76F988DA,
      0x983E5152, 0xA831C66D, 0xB00327C8, 0xBF597FC7, 0xC6E00BF3, 0xD5A79147, 0x06CA6351, 0x14292967] ++
    [0x27B70A85, 0x2E1B2138, 0x4D2C6DFC, 0x53380D13, 0x650A7354, 0x766A0ABB, 0x81C2C92E, 0x92722C85,
      0xA2BFE8A1, 0xA81A664B, 0xC24B8B70, 0xC76C51A3, 0xD192E819, 0xD6990624, 0xF40E3585, 0x106AA070] ++
    [0x19A4C116, 0x1E376C08, 0x2748774C, 0x34B0BCB5, 0x391C0CB3, 0x4ED8AA4A, 0x5B9CCA4F, 0x682E6FF3,
      0x748F82EE, 0x78A5636F, 0x84C87814, 0x8CC70208, 0x90BEFFFA, 0xA4506CEB, 0xBEF9A3F7, 0xC67178F2]) ∧
  (∀ t : Fin 64, ∃ p n : Nat, p.Prime ∧ Nat.count Nat.Prime p = t.val ∧ n ^ 3 ≤ p * 2 ^ 96 ∧
    p * 2 ^ 96 < (n + 1) ^ 3 ∧ k256[t].toNat = n % 2 ^ 32) ∧
  ∀ (S : Vector Word 8) (blk : Block), ∃ (v : Nat → Work256) (t1 t2 : Nat → Word),
    v 0 = ⟨S[0], S[1], S[2], S[3], S[4], S[5], S[6], S[7]⟩ ∧
    (∀ t : Fin 64,
      t1 t.val = (v t.val).h + bigSigma1 (v t.val).e + ch (v t.val).e (v t.val).f (v t.val).g + k256[t] +
        (schedule256 blk)[t] ∧
      t2 t.val = bigSigma0 (v t.val).a + maj (v t.val).a (v t.val).b (v t.val).c ∧
      v (t.val + 1) = ⟨t1 t.val + t2 t.val, (v t.val).a, (v t.val).b, (v t.val).c, (v t.val).d + t1 t.val,
        (v t.val).e, (v t.val).f, (v t.val).g⟩) ∧
    compress256 S blk = #v[S[0] + (v 64).a, S[1] + (v 64).b, S[2] + (v 64).c, S[3] + (v 64).d, S[4] + (v 64).e,
      S[5] + (v 64).f, S[6] + (v 64).g, S[7] + (v 64).h]

/-! ### The digest serializer (46_digest_serializer.md) -/

/-- R121, R122: byte `4i + j` of the digest is byte `j` of word `i`, counted from the most significant for `E256` and
from the least significant for `E128`. -/
def Obligations.SerializeByteOrder : Prop :=
  (∀ (S : Vector Word 8) (i : Fin 8) (j : Fin 4),
    ((serialize .e256 S).toList.getD (4 * i.val + j.val) 0).toNat = S[i].toNat / 2 ^ (24 - 8 * j.val) % 256) ∧
  (∀ (S : Vector Word 4) (i : Fin 4) (j : Fin 4),
    ((serialize .e128 S).toList.getD (4 * i.val + j.val) 0).toNat = S[i].toNat / 2 ^ (8 * j.val) % 256)

/-- R123: `n` bytes give `2n` characters, high nibble first, `0 .. 9` and lowercase `a .. f`. -/
def Obligations.HexCharacters : Prop :=
  ∀ d : List Byte, (hex d).length = 2 * d.length ∧ ∀ k, k < d.length → ∀ hi lo : Nat,
    hi = (d.getD k 0).toNat / 16 → lo = (d.getD k 0).toNat % 16 →
    ((hex d).getD (2 * k) 0).toNat = (if hi ≤ 9 then 0x30 + hi else 0x61 + (hi - 10)) ∧
    ((hex d).getD (2 * k + 1) 0).toNat = (if lo ≤ 9 then 0x30 + lo else 0x61 + (lo - 10))

/-- R120, R124: `FIN` on a ready open engine answers `(OK, 0)` and closes it: one or two blocks made of the pending
bytes and the tail are compressed, `OFF` is 0, `DIGEST` is the serialized words, `LEN` and everything else keep what
they hold; on a ready closed engine it changes nothing. -/
def Obligations.FinClosesEngine : Prop :=
  ∀ (s : State) (e : Engine), Ready s e →
    ((s.engine e).closed = false → ∃ t, exec (.fin e) s = .next t ∧
      (t.engine e).closed = true ∧ (t.engine e).off = 0 ∧ (t.engine e).fault = false ∧
      (t.engine e).len = (s.engine e).len ∧
      (t.engine e).h = foldBlocks e (s.engine e).h (if (s.engine e).off.toNat ≤ 55 then 1 else 2)
        (pendingBytes (s.engine e) ++ tail e (s.engine e).off (s.engine e).len) ∧
      (t.engine e).digest = serialize e (t.engine e).h ∧
      t.engine e.other = s.engine e.other ∧ t.mem = s.mem ∧ t.memBytes = s.memBytes ∧ t.inputs = s.inputs ∧
      t.outputs = .response ⟨0, 0⟩ :: s.outputs) ∧
    ((s.engine e).closed = true → exec (.fin e) s = .next (answered s 0 0))

/-- R125: `GETB` in bounds on a ready engine answers `(OK, 0)`, leaves the engine as `FIN` would, and byte `i` of
the digest is `MEM[dst + i]`; every other byte of `MEM` is unchanged. -/
def Obligations.GetbWritesDigest : Prop :=
  ∀ (s : State) (e : Engine) (dst : BitVec 24), Ready s e → dst.toNat + 4 * e.nw ≤ s.memBytes →
    ∃ t u, exec (.getb e dst) s = .next t ∧ exec (.fin e) s = .next u ∧ t.engine e = u.engine e ∧
      (∀ i, i < 4 * e.nw → Memory.read t.mem (dst.toNat + i) = (t.engine e).digest.toList[i]?) ∧
      (∀ a, a < dst.toNat ∨ dst.toNat + 4 * e.nw ≤ a → Memory.read t.mem a = Memory.read s.mem a) ∧
      t.engine e.other = s.engine e.other ∧ t.memBytes = s.memBytes ∧ t.inputs = s.inputs ∧
      t.outputs = .response ⟨0, 0⟩ :: s.outputs

/-- R126: `GETH` in bounds on a ready engine answers `(OK, 0)`, leaves the engine as `FIN` would, and the characters
of the bytes of the digest are at `dst`, high nibble first; every other byte of `MEM` is unchanged. -/
def Obligations.GethWritesHex : Prop :=
  ∀ (s : State) (e : Engine) (dst : BitVec 24), Ready s e → dst.toNat + 2 * (4 * e.nw) ≤ s.memBytes →
    ∃ t u, exec (.geth e dst) s = .next t ∧ exec (.fin e) s = .next u ∧ t.engine e = u.engine e ∧
      (∀ i : Fin (4 * e.nw),
        Memory.read t.mem (dst.toNat + 2 * i.val) = some (hexDigit ((t.engine e).digest[i].extractLsb' 4 4)) ∧
        Memory.read t.mem (dst.toNat + 2 * i.val + 1) =
          some (hexDigit ((t.engine e).digest[i].extractLsb' 0 4))) ∧
      (∀ a, a < dst.toNat ∨ dst.toNat + 2 * (4 * e.nw) ≤ a → Memory.read t.mem a = Memory.read s.mem a) ∧
      t.engine e.other = s.engine e.other ∧ t.memBytes = s.memBytes ∧ t.inputs = s.inputs ∧
      t.outputs = .response ⟨0, 0⟩ :: s.outputs

/-- The frame of `FIN`, `GETB` and `GETH`, in every state: `LEN`, the other engine, the size of `MEM` and the host's
list are unchanged; `FIN` changes no byte of `MEM`, `GETB` and `GETH` none outside `DB(e)` and `2 × DB(e)` bytes at
`dst`; `FAULT` is unchanged but where the entry check sets it; one response is added. -/
def Obligations.FinalizingFrame : Prop :=
  ∀ (s t : State) (e : Engine) (i : Instr) (dst : BitVec 24), (i = .fin e ∨ i = .getb e dst ∨ i = .geth e dst) →
    exec i s = .next t →
    (t.engine e).len = (s.engine e).len ∧
    ((s.engine e).off.toNat ≤ 63 → (t.engine e).fault = (s.engine e).fault) ∧
    t.engine e.other = s.engine e.other ∧ t.memBytes = s.memBytes ∧ t.inputs = s.inputs ∧
    (i = .fin e → t.mem = s.mem) ∧
    (i = .getb e dst → ∀ a, a < dst.toNat ∨ dst.toNat + 4 * e.nw ≤ a →
      Memory.read t.mem a = Memory.read s.mem a) ∧
    (i = .geth e dst → ∀ a, a < dst.toNat ∨ dst.toNat + 2 * (4 * e.nw) ≤ a →
      Memory.read t.mem a = Memory.read s.mem a) ∧
    ∃ r, t.outputs = .response r :: s.outputs

/-- R127 (marked derived in the spec): once closed, an engine keeps its words, offset, counter and digest through every command but `INIT` of that
engine; and the bytes a second `GETB` writes are those of the first. -/
def Obligations.ClosedEngineIsReadOnly : Prop :=
  (∀ (s t : State) (e : Engine) (i : Instr), Ready s e → (s.engine e).closed = true → i ≠ .init e →
    exec i s = .next t → t.engine e = s.engine e) ∧
  (∀ (s t u : State) (e : Engine) (d1 d2 : BitVec 24), Ready s e → d1.toNat + 4 * e.nw ≤ s.memBytes →
    d2.toNat + 4 * e.nw ≤ s.memBytes → exec (.getb e d1) s = .next t → exec (.getb e d2) t = .next u →
    ∀ i, i < 4 * e.nw → Memory.read u.mem (d2.toNat + i) = Memory.read t.mem (d1.toNat + i))

/-! ### The digest of a message (41_padding_engine.md R75, 46_digest_serializer.md R128) -/

/-- R21 items 2, 3 and 5 (marked derived in the spec): an engine that holds a message and accepts bytes holds the message with them appended; after
`INIT`, and after reset, it holds the empty message. -/
def Obligations.AcceptedBytesAreHeld : Prop :=
  (∀ e, Holds e [] (State.reset.engine e)) ∧
  (∀ (s t : State) (e : Engine), Ready s e → exec (.init e) s = .next t → Holds e [] (t.engine e)) ∧
  (∀ (s t : State) (e : Engine) (m : List Byte) (b : Byte) (v : BitVec 64), Holds e m (s.engine e) →
    exec (.addi e b) s = .next t → t.outputs = .response ⟨0, v⟩ :: s.outputs →
    Holds e (m ++ [b]) (t.engine e)) ∧
  (∀ (s t : State) (e : Engine) (m bs : List Byte) (off len : BitVec 24) (v : BitVec 64),
    Holds e m (s.engine e) → bs.length = len.toNat →
    (∀ i, i < len.toNat → Memory.read s.mem (off.toNat + i) = bs[i]?) →
    exec (.add e off len) s = .next t → t.outputs = .response ⟨0, v⟩ :: s.outputs →
    Holds e (m ++ bs) (t.engine e))

/-- R75, R128 (marked derived in the spec): finalizing an engine that holds a message caches the digest of the padded message, computed in one
shot. -/
def Obligations.FinalizeGivesMessageDigest : Prop :=
  ∀ (s t : State) (e : Engine) (m : List Byte), Holds e m (s.engine e) → exec (.fin e) s = .next t →
    (t.engine e).digest = digestOf e m ∧ (t.engine e).closed = true

/-- R75, R128 (marked derived in the spec), for every message shorter than `2^61` bytes and from every state whose engine is ready: `INIT`, the
bytes of the message, `FIN` all answer, and the engine's digest is the digest of the padded message in one shot. -/
def Obligations.IncrementalHashIsOneShotHash : Prop :=
  ∀ (s : State) (e : Engine) (m : List Byte), Ready s e → m.length < 2 ^ 61 →
    ∃ t u v, exec (.init e) s = .next t ∧ submitBytes e m t = .next u ∧ exec (.fin e) u = .next v ∧
      (v.engine e).digest = digestOf e m

/-- R55 (`HASHB`), R158: hashing a whole buffer: `INIT`, `ADD`, `GETB` issued one after the other leave at `dst` the
digest of the bytes that stood at `off`. -/
def Obligations.HashbWritesMessageDigest : Prop :=
  ∀ (s : State) (e : Engine) (off len dst : BitVec 24) (m : List Byte), Ready s e →
    off.toNat + len.toNat ≤ s.memBytes → dst.toNat + 4 * e.nw ≤ s.memBytes → m.length = len.toNat →
    (∀ i, i < len.toNat → Memory.read s.mem (off.toNat + i) = m[i]?) →
    ∃ l t, expandPseudo (.hashb e off len dst) = some l ∧ issueAll l s = .next t ∧
      ∀ i, i < 4 * e.nw → Memory.read t.mem (dst.toNat + i) = (digestOf e m).toList[i]?

/-- R55 (`NOP`): `ADD e, 0, 0` succeeds on a ready open engine and changes nothing but the response; on a ready closed
one it answers `UseAfterClose`. -/
def Obligations.NopChangesNothing : Prop :=
  ∀ (s : State) (e : Engine), Ready s e → ∃ l, expandPseudo (.nop e) = some l ∧
    ((s.engine e).closed = false → issueAll l s = .next (answered s 0 0)) ∧
    ((s.engine e).closed = true → issueAll l s = .next (answered s 1 (encode (.add e 0 0))))
end

