-- ==== Sys2Proof/Laws/State.lean ====
section
/-! SUPPORT. What each update of the state leaves in each field: one small lemma per field per update, so that no
proof unfolds a record update. -/

namespace Sys2Proof.Machine

/-! ### setEngine -/

@[simp] theorem State.engine_setEngine (s : State) (e : Engine) (x : EngineState e.nw) :
    (s.setEngine e x).engine e = x := by cases e <;> rfl

@[simp] theorem State.engine_setEngine_other (s : State) (e : Engine) (x : EngineState e.nw) :
    (s.setEngine e x).engine e.other = s.engine e.other := by cases e <;> rfl

theorem State.engine_setEngine_ne (s : State) {e e' : Engine} (x : EngineState e.nw) (h : e' ≠ e) :
    (s.setEngine e x).engine e' = s.engine e' := by
  cases e <;> cases e' <;> first | rfl | exact absurd rfl h

@[simp] theorem State.setEngine_engine (s : State) (e : Engine) : s.setEngine e (s.engine e) = s := by
  cases e <;> rfl

@[simp] theorem State.setEngine_setEngine (s : State) (e : Engine) (x y : EngineState e.nw) :
    (s.setEngine e x).setEngine e y = s.setEngine e y := by cases e <;> rfl

@[simp] theorem State.e128_setEngine (s : State) (x : EngineState 4) : (s.setEngine .e128 x).e128 = x := rfl

@[simp] theorem State.e256_setEngine (s : State) (x : EngineState 8) : (s.setEngine .e256 x).e256 = x := rfl

@[simp] theorem State.e256_setEngine_e128 (s : State) (x : EngineState 4) :
    (s.setEngine .e128 x).e256 = s.e256 := rfl

@[simp] theorem State.e128_setEngine_e256 (s : State) (x : EngineState 8) :
    (s.setEngine .e256 x).e128 = s.e128 := rfl

@[simp] theorem State.engine_e128 (s : State) : s.engine .e128 = s.e128 := rfl

@[simp] theorem State.engine_e256 (s : State) : s.engine .e256 = s.e256 := rfl

@[simp] theorem State.mem_setEngine (s : State) (e : Engine) (x : EngineState e.nw) :
    (s.setEngine e x).mem = s.mem := by cases e <;> rfl

@[simp] theorem State.memBytes_setEngine (s : State) (e : Engine) (x : EngineState e.nw) :
    (s.setEngine e x).memBytes = s.memBytes := by cases e <;> rfl

@[simp] theorem State.inputs_setEngine (s : State) (e : Engine) (x : EngineState e.nw) :
    (s.setEngine e x).inputs = s.inputs := by cases e <;> rfl

@[simp] theorem State.outputs_setEngine (s : State) (e : Engine) (x : EngineState e.nw) :
    (s.setEngine e x).outputs = s.outputs := by cases e <;> rfl

/-! ### setMem -/

@[simp] theorem State.engine_setMem (s : State) (m : List Host.Cell) (e : Engine) :
    (s.setMem m).engine e = s.engine e := by cases e <;> rfl

@[simp] theorem State.e128_setMem (s : State) (m : List Host.Cell) : (s.setMem m).e128 = s.e128 := rfl

@[simp] theorem State.e256_setMem (s : State) (m : List Host.Cell) : (s.setMem m).e256 = s.e256 := rfl

@[simp] theorem State.mem_setMem (s : State) (m : List Host.Cell) : (s.setMem m).mem = m := rfl

@[simp] theorem State.memBytes_setMem (s : State) (m : List Host.Cell) : (s.setMem m).memBytes = s.memBytes := rfl

@[simp] theorem State.inputs_setMem (s : State) (m : List Host.Cell) : (s.setMem m).inputs = s.inputs := rfl

@[simp] theorem State.outputs_setMem (s : State) (m : List Host.Cell) : (s.setMem m).outputs = s.outputs := rfl

/-! ### setInputs -/

@[simp] theorem State.engine_setInputs (s : State) (l : List HostAct) (e : Engine) :
    (s.setInputs l).engine e = s.engine e := by cases e <;> rfl

@[simp] theorem State.e128_setInputs (s : State) (l : List HostAct) : (s.setInputs l).e128 = s.e128 := rfl

@[simp] theorem State.e256_setInputs (s : State) (l : List HostAct) : (s.setInputs l).e256 = s.e256 := rfl

@[simp] theorem State.mem_setInputs (s : State) (l : List HostAct) : (s.setInputs l).mem = s.mem := rfl

@[simp] theorem State.memBytes_setInputs (s : State) (l : List HostAct) : (s.setInputs l).memBytes = s.memBytes := rfl

@[simp] theorem State.inputs_setInputs (s : State) (l : List HostAct) : (s.setInputs l).inputs = l := rfl

@[simp] theorem State.outputs_setInputs (s : State) (l : List HostAct) : (s.setInputs l).outputs = s.outputs := rfl

/-! ### observe -/

@[simp] theorem State.engine_observe (s : State) (o : HostObs) (e : Engine) :
    (s.observe o).engine e = s.engine e := by cases e <;> rfl

@[simp] theorem State.e128_observe (s : State) (o : HostObs) : (s.observe o).e128 = s.e128 := rfl

@[simp] theorem State.e256_observe (s : State) (o : HostObs) : (s.observe o).e256 = s.e256 := rfl

@[simp] theorem State.mem_observe (s : State) (o : HostObs) : (s.observe o).mem = s.mem := rfl

@[simp] theorem State.memBytes_observe (s : State) (o : HostObs) : (s.observe o).memBytes = s.memBytes := rfl

@[simp] theorem State.inputs_observe (s : State) (o : HostObs) : (s.observe o).inputs = s.inputs := rfl

@[simp] theorem State.outputs_observe (s : State) (o : HostObs) : (s.observe o).outputs = o :: s.outputs := rfl

/-! ### latchFault -/

@[simp] theorem State.engine_latchFault (s : State) (e : Engine) :
    (s.latchFault e).engine e = { s.engine e with fault := true } := by cases e <;> rfl

@[simp] theorem State.engine_latchFault_other (s : State) (e : Engine) :
    (s.latchFault e).engine e.other = s.engine e.other := by cases e <;> rfl

@[simp] theorem State.mem_latchFault (s : State) (e : Engine) : (s.latchFault e).mem = s.mem := by
  cases e <;> rfl

@[simp] theorem State.memBytes_latchFault (s : State) (e : Engine) : (s.latchFault e).memBytes = s.memBytes := by
  cases e <;> rfl

@[simp] theorem State.inputs_latchFault (s : State) (e : Engine) : (s.latchFault e).inputs = s.inputs := by
  cases e <;> rfl

@[simp] theorem State.outputs_latchFault (s : State) (e : Engine) : (s.latchFault e).outputs = s.outputs := by
  cases e <;> rfl

/-! ### applyReset -/

@[simp] theorem State.engine_applyReset (s : State) (e : Engine) :
    (applyReset s).engine e = EngineState.reset (iv e) := by cases e <;> rfl

@[simp] theorem State.e128_applyReset (s : State) : (applyReset s).e128 = EngineState.reset iv128 := rfl

@[simp] theorem State.e256_applyReset (s : State) : (applyReset s).e256 = EngineState.reset iv256 := rfl

@[simp] theorem State.mem_applyReset (s : State) : (applyReset s).mem = s.mem := rfl

@[simp] theorem State.memBytes_applyReset (s : State) : (applyReset s).memBytes = s.memBytes := rfl

@[simp] theorem State.inputs_applyReset (s : State) : (applyReset s).inputs = s.inputs := rfl

@[simp] theorem State.outputs_applyReset (s : State) : (applyReset s).outputs = s.outputs := rfl

/-! ### The model's own counter -/

@[simp] theorem State.freeChoices_setEngine (s : State) (e : Engine) (x : EngineState e.nw) :
    (s.setEngine e x).freeChoices = s.freeChoices := by cases e <;> rfl

@[simp] theorem State.freeChoices_setMem (s : State) (m : List Host.Cell) :
    (s.setMem m).freeChoices = s.freeChoices := rfl

@[simp] theorem State.freeChoices_setInputs (s : State) (l : List HostAct) :
    (s.setInputs l).freeChoices = s.freeChoices := rfl

@[simp] theorem State.freeChoices_observe (s : State) (o : HostObs) :
    (s.observe o).freeChoices = s.freeChoices := rfl

@[simp] theorem State.freeChoices_latchFault (s : State) (e : Engine) :
    (s.latchFault e).freeChoices = s.freeChoices := by cases e <;> rfl

@[simp] theorem State.freeChoices_applyReset (s : State) :
    (applyReset s).freeChoices = s.freeChoices := rfl

/-! ### Updates that commute -/

theorem State.setEngine_observe (s : State) (e : Engine) (x : EngineState e.nw) (o : HostObs) :
    (s.observe o).setEngine e x = (s.setEngine e x).observe o := by cases e <;> rfl

theorem State.setEngine_comm (s : State) (e : Engine) (x : EngineState e.nw) (y : EngineState e.other.nw) :
    (s.setEngine e x).setEngine e.other y = (s.setEngine e.other y).setEngine e x := by cases e <;> rfl

@[simp] theorem Engine.other_other (e : Engine) : e.other.other = e := by cases e <;> rfl

theorem Engine.other_ne (e : Engine) : e.other ≠ e := by cases e <;> decide

theorem Engine.eq_or_eq_other (e e' : Engine) : e' = e ∨ e' = e.other := by cases e <;> cases e' <;> decide

end Sys2Proof.Machine
end

