-- ==== Sys2Proof/Laws/Memory.lean ====
section
/-! SUPPORT. The laws of memory: a read after a write, the canonical form, and runs of bytes. -/

namespace Sys2Proof.Machine

/-- Every address listed lies above `a`. -/
def Memory.above (a : Nat) (m : List Host.Cell) : Prop := ∀ c ∈ m, a < c.1

theorem Memory.wf_cons (c : Host.Cell) (m : List Host.Cell) :
    Memory.wf (c :: m) = true ↔ Memory.above c.1 m ∧ Memory.wf m = true := by
  induction m generalizing c with
  | nil => simp [Memory.wf, Memory.above]
  | cons d m ih =>
    obtain ⟨a, b⟩ := c
    obtain ⟨a', b'⟩ := d
    have hd := ih (a', b')
    simp only [Memory.wf, Bool.and_eq_true, decide_eq_true_eq]
    constructor
    · rintro ⟨h, hw⟩
      refine ⟨?_, hw⟩
      intro c hc
      rcases List.mem_cons.1 hc with rfl | hc
      · exact h
      · exact lt_trans h ((hd.1 hw).1 c hc)
    · rintro ⟨h, hw⟩
      exact ⟨h (a', b') (by simp), hw⟩

theorem Memory.read_above {a : Nat} {m : List Host.Cell} (h : Memory.above a m) : Memory.read m a = none := by
  induction m with
  | nil => rfl
  | cons c m ih =>
    obtain ⟨a', b⟩ := c
    have h1 : a < a' := h (a', b) (by simp)
    rw [Memory.read, if_neg (by omega)]
    exact ih fun d hd => h d (by simp [hd])

/-- A read gives the byte last written at the address (R30, R40). -/
@[simp] theorem Memory.read_write_same (m : List Host.Cell) (a : Nat) (b : Byte) :
    Memory.read (Memory.write m a b) a = some b := by
  induction m with
  | nil => simp [Memory.write, Memory.read]
  | cons c m ih =>
    obtain ⟨a', b'⟩ := c
    rw [Memory.write]
    split
    · simp [Memory.read]
    · split
      · simp [Memory.read]
      · rw [Memory.read, if_neg (by omega), ih]

/-- A write leaves every other address alone (R33). -/
theorem Memory.read_write_other (m : List Host.Cell) {a a' : Nat} (b : Byte) (h : a' ≠ a) :
    Memory.read (Memory.write m a b) a' = Memory.read m a' := by
  induction m with
  | nil => simp [Memory.write, Memory.read, h]
  | cons c m ih =>
    obtain ⟨k, b'⟩ := c
    rw [Memory.write]
    split
    · simp [Memory.read, h]
    · split
      · next hk => subst hk; simp [Memory.read, h]
      · rw [Memory.read, Memory.read, ih]

theorem Memory.above_write {k a : Nat} {m : List Host.Cell} (b : Byte) (h : Memory.above k m) (ha : k < a) :
    Memory.above k (Memory.write m a b) := by
  induction m with
  | nil => intro c hc; simp [Memory.write] at hc; subst hc; exact ha
  | cons c m ih =>
    obtain ⟨a', b'⟩ := c
    have h1 : k < a' := h (a', b') (by simp)
    have h2 : Memory.above k m := fun d hd => h d (by simp [hd])
    rw [Memory.write]
    split
    · intro d hd
      simp only [List.mem_cons] at hd
      rcases hd with rfl | rfl | hd
      · exact ha
      · exact h1
      · exact h2 d hd
    · split
      · intro d hd
        rcases List.mem_cons.1 hd with rfl | hd
        · exact ha
        · exact h2 d hd
      · intro d hd
        rcases List.mem_cons.1 hd with rfl | hd
        · exact h1
        · exact ih h2 d hd

/-- A write keeps the canonical form. -/
theorem Memory.wf_write {m : List Host.Cell} (a : Nat) (b : Byte) (h : Memory.wf m = true) :
    Memory.wf (Memory.write m a b) = true := by
  induction m with
  | nil => rfl
  | cons c m ih =>
    obtain ⟨a', b'⟩ := c
    obtain ⟨h1, h2⟩ := (Memory.wf_cons (a', b') m).1 h
    rw [Memory.write]
    split
    · next hk => simp only [Memory.wf, hk, decide_true, Bool.true_and]; exact h
    · split
      · next hk => subst hk; exact (Memory.wf_cons (a, b) m).2 ⟨h1, h2⟩
      · next hk hk' => exact (Memory.wf_cons _ _).2 ⟨Memory.above_write b h1 (by simp only; omega), ih h2⟩

/-- A write inside the address space keeps every listed byte inside it. -/
theorem Memory.within_write {n : Nat} {m : List Host.Cell} {a : Nat} (b : Byte) (h : Memory.within n m = true)
    (ha : a < n) : Memory.within n (Memory.write m a b) = true := by
  unfold Memory.within at *
  induction m with
  | nil => simp [Memory.write, ha]
  | cons c m ih =>
    obtain ⟨a', b'⟩ := c
    simp only [List.all_cons, Bool.and_eq_true, decide_eq_true_eq] at h
    rw [Memory.write]
    split
    · simp only [List.all_cons, Bool.and_eq_true, decide_eq_true_eq]; exact ⟨ha, h⟩
    · split
      · simp only [List.all_cons, Bool.and_eq_true, decide_eq_true_eq]; exact ⟨ha, h.2⟩
      · simp only [List.all_cons, Bool.and_eq_true, decide_eq_true_eq]; exact ⟨h.1, ih h.2⟩

/-- A byte that has a value lies in the address space. -/
theorem Memory.lt_of_read {n a : Nat} {m : List Host.Cell} {b : Byte} (h : Memory.within n m = true)
    (hr : Memory.read m a = some b) : a < n := by
  induction m with
  | nil => cases hr
  | cons c m ih =>
    obtain ⟨a', b'⟩ := c
    unfold Memory.within at *
    simp only [List.all_cons, Bool.and_eq_true, decide_eq_true_eq] at h
    rw [Memory.read] at hr
    split at hr
    · next ha => rw [ha]; exact h.1
    · exact ih h.2 hr

/-! ### Runs of bytes -/

theorem Memory.wf_writeBytes {m : List Host.Cell} (a : Nat) (v : List Byte) (h : Memory.wf m = true) :
    Memory.wf (Memory.writeBytes m a v) = true := by
  induction v generalizing m a with
  | nil => exact h
  | cons b v ih => exact ih (a + 1) (Memory.wf_write a b h)

theorem Memory.within_writeBytes {n : Nat} {m : List Host.Cell} {a : Nat} (v : List Byte)
    (h : Memory.within n m = true) (ha : a + v.length ≤ n) :
    Memory.within n (Memory.writeBytes m a v) = true := by
  induction v generalizing m a with
  | nil => exact h
  | cons b v ih =>
    simp only [List.length_cons] at ha
    exact ih (Memory.within_write b h (by omega)) (by omega)

/-- `MemWrite` changes no byte outside its range (R33). -/
theorem Memory.read_writeBytes_outside (m : List Host.Cell) (a : Nat) (v : List Byte) {k : Nat}
    (hk : k < a ∨ a + v.length ≤ k) : Memory.read (Memory.writeBytes m a v) k = Memory.read m k := by
  induction v generalizing m a with
  | nil => rfl
  | cons b v ih =>
    simp only [List.length_cons] at hk
    rw [Memory.writeBytes, ih _ _ (by omega), Memory.read_write_other _ _ (by omega)]

/-- `MEM[a + i]` is byte `i` of the list written (R33). -/
theorem Memory.read_writeBytes_inside (m : List Host.Cell) (a : Nat) (v : List Byte) {i : Nat}
    (hi : i < v.length) : Memory.read (Memory.writeBytes m a v) (a + i) = some v[i] := by
  induction v generalizing m a i with
  | nil => simp at hi
  | cons b v ih =>
    cases i with
    | zero => rw [Memory.writeBytes, Memory.read_writeBytes_outside _ _ _ (by omega)]; simp
    | succ i =>
      have := ih (Memory.write m a b) (a + 1) (i := i) (by simpa using hi)
      rw [Memory.writeBytes, show a + (i + 1) = a + 1 + i by omega, this]; simp

/-- `MemRead` answers the bytes at `a, a + 1, …` in that order (R32). -/
theorem Memory.readBytes_ok {m : List Host.Cell} {a n : Nat} {v : List Byte}
    (h : Memory.readBytes m a n = .ok v) :
    v.length = n ∧ ∀ i (hi : i < v.length), Memory.read m (a + i) = some v[i] := by
  induction n generalizing a v with
  | zero => simp [Memory.readBytes] at h; subst h; simp
  | succ n ih =>
    rw [Memory.readBytes] at h
    split at h
    · cases h
    · next b hb =>
      split at h
      · next w hw =>
        cases h
        obtain ⟨h1, h2⟩ := ih hw
        refine ⟨by simp [h1], fun i hi => ?_⟩
        cases i with
        | zero => simpa using hb
        | succ i => simpa [Nat.add_assoc, Nat.add_comm 1 i] using h2 i (by simpa using hi)
      · cases h

/-- `MemRead` stops at the first address nothing has written. -/
theorem Memory.readBytes_error {m : List Host.Cell} {a n x : Nat}
    (h : Memory.readBytes m a n = .error x) :
    a ≤ x ∧ x < a + n ∧ Memory.read m x = none ∧ ∀ k, a ≤ k → k < x → (Memory.read m k).isSome = true := by
  induction n generalizing a with
  | zero => simp [Memory.readBytes] at h
  | succ n ih =>
    rw [Memory.readBytes] at h
    split at h
    · next hb => cases h; exact ⟨le_refl _, by omega, hb, fun k h1 h2 => by omega⟩
    · next b hb =>
      split at h
      · cases h
      · next y hy =>
        cases h
        obtain ⟨h1, h2, h3, h4⟩ := ih hy
        refine ⟨by omega, by omega, h3, fun k hk hk' => ?_⟩
        rcases Nat.eq_or_lt_of_le hk with rfl | hlt
        · simp [hb]
        · exact h4 k (by omega) hk'

/-- `MemRead` succeeds where every byte has been written. -/
theorem Memory.readBytes_of_written {m : List Host.Cell} {a n : Nat}
    (h : ∀ i, i < n → (Memory.read m (a + i)).isSome = true) : ∃ v, Memory.readBytes m a n = .ok v := by
  cases hr : Memory.readBytes m a n with
  | ok v => exact ⟨v, rfl⟩
  | error x =>
    obtain ⟨h1, h2, h3, -⟩ := Memory.readBytes_error hr
    have := h (x - a) (by omega)
    rw [show a + (x - a) = x by omega, h3] at this
    cases this

/-- Two reads of adjoining ranges are one read (R32). -/
theorem Memory.readBytes_append {m : List Host.Cell} {a n k : Nat} {v w : List Byte}
    (h1 : Memory.readBytes m a n = .ok v) (h2 : Memory.readBytes m (a + n) k = .ok w) :
    Memory.readBytes m a (n + k) = .ok (v ++ w) := by
  induction n generalizing a v with
  | zero => simp [Memory.readBytes] at h1; subst h1; simpa using h2
  | succ n ih =>
    rw [Memory.readBytes] at h1
    split at h1
    · cases h1
    · next b hb =>
      split at h1
      · next u hu =>
        cases h1
        have := ih hu (by rwa [show a + 1 + n = a + (n + 1) by omega])
        rw [show n + 1 + k = (n + k) + 1 by omega, Memory.readBytes, hb, this]
        rfl
      · cases h1

/-- `MEM` is in canonical form right after reset. -/
theorem State.reset_mem_wf : Memory.wf State.reset.mem = true := rfl

end Sys2Proof.Machine
end

