-- ==== Sys2Proof/Laws/Engine.lean ====
section
/-! SUPPORT. What the operations on one engine leave in each of its elements (42_incremental_buffer.md R80,
46_digest_serializer.md R120): the elements they never touch, and the offset. -/

namespace Sys2Proof.Machine

variable {e : Engine}

/-! ### absorb -/

@[simp] theorem absorb_len (x : EngineState e.nw) (b : Byte) : (absorb e x b).len = x.len := by
  unfold absorb; dsimp only; split <;> rfl

@[simp] theorem absorb_closed (x : EngineState e.nw) (b : Byte) : (absorb e x b).closed = x.closed := by
  unfold absorb; dsimp only; split <;> rfl

@[simp] theorem absorb_fault (x : EngineState e.nw) (b : Byte) : (absorb e x b).fault = x.fault := by
  unfold absorb; dsimp only; split <;> rfl

@[simp] theorem absorb_digest (x : EngineState e.nw) (b : Byte) : (absorb e x b).digest = x.digest := by
  unfold absorb; dsimp only; split <;> rfl

@[simp] theorem absorb_buf (x : EngineState e.nw) (b : Byte) :
    (absorb e x b).buf = x.buf.setIfInBounds x.off.toNat b := by
  unfold absorb; dsimp only; split <;> rfl

theorem off_succ_eq_64 (o : BitVec 7) : o + 1 = 64 ↔ o.toNat = 63 := by
  revert o; decide

/-- `Absorb` raises the offset by one, to 0 at a full block (R80). -/
theorem absorb_off {x : EngineState e.nw} (h : x.off.toNat ≤ 63) (b : Byte) :
    (absorb e x b).off.toNat = (x.off.toNat + 1) % 64 := by
  unfold absorb
  dsimp only
  split
  · next h64 => rw [(off_succ_eq_64 _).1 h64]; rfl
  · next h64 =>
    have : x.off.toNat ≠ 63 := fun h => h64 ((off_succ_eq_64 _).2 h)
    have h1 : (1 : BitVec 7).toNat = 1 := rfl
    rw [BitVec.toNat_add, h1]
    omega

/-- `Absorb` writes the state words only at a full block, with the compression of the buffer (R80). -/
theorem absorb_h (x : EngineState e.nw) (b : Byte) :
    (absorb e x b).h =
      if x.off.toNat = 63 then compress e x.h (x.buf.setIfInBounds x.off.toNat b) else x.h := by
  unfold absorb
  dsimp only
  split
  · next h64 => rw [if_pos ((off_succ_eq_64 _).1 h64)]
  · next h64 => rw [if_neg fun h => h64 ((off_succ_eq_64 _).2 h)]

/-! ### absorbAll -/

@[simp] theorem absorbAll_nil (x : EngineState e.nw) : absorbAll e x [] = x := rfl

@[simp] theorem absorbAll_cons (x : EngineState e.nw) (b : Byte) (v : List Byte) :
    absorbAll e x (b :: v) = absorbAll e (absorb e x b) v := rfl

theorem absorbAll_append (x : EngineState e.nw) (v w : List Byte) :
    absorbAll e x (v ++ w) = absorbAll e (absorbAll e x v) w := List.foldl_append

@[simp] theorem absorbAll_len (x : EngineState e.nw) (v : List Byte) : (absorbAll e x v).len = x.len := by
  induction v generalizing x with
  | nil => rfl
  | cons b v ih => simp [ih]

@[simp] theorem absorbAll_closed (x : EngineState e.nw) (v : List Byte) :
    (absorbAll e x v).closed = x.closed := by
  induction v generalizing x with
  | nil => rfl
  | cons b v ih => simp [ih]

@[simp] theorem absorbAll_fault (x : EngineState e.nw) (v : List Byte) :
    (absorbAll e x v).fault = x.fault := by
  induction v generalizing x with
  | nil => rfl
  | cons b v ih => simp [ih]

@[simp] theorem absorbAll_digest (x : EngineState e.nw) (v : List Byte) :
    (absorbAll e x v).digest = x.digest := by
  induction v generalizing x with
  | nil => rfl
  | cons b v ih => simp [ih]

/-- A run of `Absorb` over `n` bytes leaves the offset at `(OFF + n) mod 64` (R81, R82). -/
theorem absorbAll_off {x : EngineState e.nw} (h : x.off.toNat ≤ 63) (v : List Byte) :
    (absorbAll e x v).off.toNat = (x.off.toNat + v.length) % 64 := by
  induction v generalizing x with
  | nil => simp only [absorbAll_nil, List.length_nil]; omega
  | cons b v ih =>
    have h1 := absorb_off h b
    rw [absorbAll_cons, ih (by omega), h1, List.length_cons]
    omega

/-! ### submit, initEngine, closeEngine, absorbTail -/

@[simp] theorem submit_closed (x : EngineState e.nw) (v : List Byte) : (submit e x v).closed = x.closed := by
  simp [submit]

@[simp] theorem submit_fault (x : EngineState e.nw) (v : List Byte) : (submit e x v).fault = x.fault := by
  simp [submit]

@[simp] theorem submit_digest (x : EngineState e.nw) (v : List Byte) : (submit e x v).digest = x.digest := by
  simp [submit]

@[simp] theorem submit_len (x : EngineState e.nw) (v : List Byte) :
    (submit e x v).len = x.len + BitVec.ofNat 64 (8 * v.length) := by simp [submit]

/-- The counter rises by exactly 8 per byte where the overflow check passed (R82, R84). -/
theorem submit_len_toNat {x : EngineState e.nw} {v : List Byte} (h : x.len.toNat + 8 * v.length ≤ 2 ^ 64 - 1) :
    (submit e x v).len.toNat = x.len.toNat + 8 * v.length := by
  rw [submit_len, BitVec.toNat_add, BitVec.toNat_ofNat]
  omega

theorem submit_off {x : EngineState e.nw} (h : x.off.toNat ≤ 63) (v : List Byte) :
    (submit e x v).off.toNat = (x.off.toNat + v.length) % 64 := by
  unfold submit
  exact absorbAll_off (x := { x with len := x.len + BitVec.ofNat 64 (8 * v.length) }) h v

@[simp] theorem absorbTail_len (x : EngineState e.nw) : (absorbTail e x).len = x.len := by simp [absorbTail]

@[simp] theorem absorbTail_closed (x : EngineState e.nw) : (absorbTail e x).closed = x.closed := by
  simp [absorbTail]

@[simp] theorem absorbTail_fault (x : EngineState e.nw) : (absorbTail e x).fault = x.fault := by
  simp [absorbTail]

@[simp] theorem absorbTail_digest (x : EngineState e.nw) : (absorbTail e x).digest = x.digest := by
  simp [absorbTail]

@[simp] theorem closeEngine_h (x : EngineState e.nw) : (closeEngine e x).h = x.h := rfl

@[simp] theorem closeEngine_buf (x : EngineState e.nw) : (closeEngine e x).buf = x.buf := rfl

@[simp] theorem closeEngine_off (x : EngineState e.nw) : (closeEngine e x).off = x.off := rfl

@[simp] theorem closeEngine_len (x : EngineState e.nw) : (closeEngine e x).len = x.len := rfl

@[simp] theorem closeEngine_fault (x : EngineState e.nw) : (closeEngine e x).fault = x.fault := rfl

@[simp] theorem closeEngine_closed (x : EngineState e.nw) : (closeEngine e x).closed = true := rfl

@[simp] theorem closeEngine_digest (x : EngineState e.nw) : (closeEngine e x).digest = serialize e x.h := rfl

@[simp] theorem initEngine_h (x : EngineState e.nw) : (initEngine e x).h = iv e := rfl

@[simp] theorem initEngine_buf (x : EngineState e.nw) : (initEngine e x).buf = x.buf := rfl

@[simp] theorem initEngine_off (x : EngineState e.nw) : (initEngine e x).off = 0 := rfl

@[simp] theorem initEngine_len (x : EngineState e.nw) : (initEngine e x).len = 0 := rfl

@[simp] theorem initEngine_closed (x : EngineState e.nw) : (initEngine e x).closed = false := rfl

@[simp] theorem initEngine_fault (x : EngineState e.nw) : (initEngine e x).fault = x.fault := rfl

@[simp] theorem initEngine_digest (x : EngineState e.nw) : (initEngine e x).digest = x.digest := rfl

end Sys2Proof.Machine
end

