-- ==== Sys2Proof/Laws/Ops.lean ====
section
/-! SUPPORT. What each shared operation can answer, said once: the frame of a command, an error, `Finalize`, the
reads of status registers and the host's own accesses. Later proofs cite these and do not unfold the operations. -/

namespace Sys2Proof.Machine

/-! ### errorEffect and raise -/

theorem errorEffect_eq_self {err : Err} (h : err ≠ .invariantViolation) (e : Engine) (s : State) :
    errorEffect err e s = s := by cases err <;> first | rfl | exact absurd rfl h

theorem errorEffect_invariantViolation (e : Engine) (s : State) :
    errorEffect .invariantViolation e s = s.latchFault e := rfl

/-- An error always answers a next state: its response, and the fault latch for `InvariantViolation` (R137). -/
theorem raise_eq (err : Err) (e : Engine) (cmd : CmdWord) (s : State) :
    raise err e cmd s = .next ((errorEffect err e s).observe (.response ⟨errCode err, cmd⟩)) := rfl

theorem respondOk_eq (v : BitVec 64) (s : State) :
    respondOk v s = .next (s.observe (.response ⟨codeOK, v⟩)) := rfl

/-! ### frame -/

theorem frame_faulted {e : Engine} {s : State} (h : (s.engine e).fault = true) (cmd : CmdWord)
    (body : State → Result) : frame e cmd s body = raise .engineFaulted e cmd s := by simp [frame, h]

theorem frame_badOffset {e : Engine} {s : State} (h : (s.engine e).fault = false)
    (ho : 64 ≤ (s.engine e).off.toNat) (cmd : CmdWord) (body : State → Result) :
    frame e cmd s body = raise .invariantViolation e cmd s := by simp [frame, h, ho]

theorem frame_ready {e : Engine} {s : State} (h : (s.engine e).fault = false)
    (ho : (s.engine e).off.toNat ≤ 63) (cmd : CmdWord) (body : State → Result) :
    frame e cmd s body = body s := by
  have : ¬ 64 ≤ (s.engine e).off.toNat := by omega
  simp [frame, h, this]

/-- What the frame answers, in the order of its checks (R60 steps 3 to 5). -/
theorem frame_cases (e : Engine) (cmd : CmdWord) (s : State) (body : State → Result) :
    ((s.engine e).fault = true ∧ frame e cmd s body = raise .engineFaulted e cmd s) ∨
    ((s.engine e).fault = false ∧ 64 ≤ (s.engine e).off.toNat ∧
      frame e cmd s body = raise .invariantViolation e cmd s) ∨
    ((s.engine e).fault = false ∧ (s.engine e).off.toNat ≤ 63 ∧ frame e cmd s body = body s) := by
  cases h : (s.engine e).fault with
  | true => exact .inl ⟨rfl, frame_faulted h cmd body⟩
  | false =>
    rcases Nat.lt_or_ge (s.engine e).off.toNat 64 with ho | ho
    · exact .inr (.inr ⟨rfl, by omega, frame_ready h (by omega) cmd body⟩)
    · exact .inr (.inl ⟨rfl, ho, frame_badOffset h ho cmd body⟩)

/-! ### finalize -/

/-- What `Finalize` answers (R120): nothing on a closed engine; the exit assertion; or the engine closed. -/
theorem finalize_cases (e : Engine) (cmd : CmdWord) (s : State) (rest : State → Result) :
    ((s.engine e).closed = true ∧ finalize e cmd s rest = rest s) ∨
    ((s.engine e).closed = false ∧ (absorbTail e (s.engine e)).off ≠ 0 ∧
      finalize e cmd s rest =
        raise .invariantViolation e cmd (s.setEngine e (absorbTail e (s.engine e)))) ∨
    ((s.engine e).closed = false ∧ (absorbTail e (s.engine e)).off = 0 ∧
      finalize e cmd s rest = rest (s.setEngine e (closeEngine e (absorbTail e (s.engine e))))) := by
  unfold finalize
  cases h : (s.engine e).closed with
  | true => exact .inl ⟨rfl, by simp⟩
  | false =>
    by_cases ho : (absorbTail e (s.engine e)).off = 0
    · exact .inr (.inr ⟨rfl, ho, by rw [if_neg (by simp), if_neg (not_not.2 ho)]⟩)
    · exact .inr (.inl ⟨rfl, ho, by rw [if_neg (by simp), if_pos ho]⟩)

/-! ### Operands and checks -/

@[simp] theorem operandNat_eq (v : BitVec 24) : operandNat v = v.toNat := rfl

theorem inBounds_iff {s : State} {a n : Nat} : inBounds s a n = true ↔ a + n ≤ s.memBytes := by
  simp [inBounds]

theorem not_inBounds_iff {s : State} {a n : Nat} : (!inBounds s a n) = true ↔ s.memBytes < a + n := by
  simp [inBounds]

theorem lengthOverflows_iff {nw : Nat} {x : EngineState nw} {n : Nat} :
    lengthOverflows x n = true ↔ 2 ^ 64 - 1 < x.len.toNat + 8 * n := by simp [lengthOverflows]

/-! ### Status registers -/

/-- The engine has exactly the registers whose selectors are legal (R19, R50). -/
theorem statusRegister_isSome (e : Engine) (sel : BitVec 8) (x : EngineState e.nw) :
    (statusRegister e sel x).isSome = legalSel e sel := by
  unfold statusRegister legalSel isStateWordSel
  split
  · next h => simp [h]
  · next h1 =>
    split
    · next h => simp [h]
    · next h2 =>
      split
      · next h => simp [show selH0.toNat ≤ sel.toNat ∧ sel.toNat < selH0.toNat + e.nw by omega]
      · next h =>
        simp [h1, h2, show ¬ (selH0.toNat ≤ sel.toNat ∧ sel.toNat < selH0.toNat + e.nw) by omega]

/-! ### The host's accesses -/

theorem hostWrite_cases (a : Nat) (b : Byte) (s : State) :
    (a < s.memBytes ∧ hostWrite a b s = .next (s.setMem (Memory.write s.mem a b))) ∨
    (s.memBytes ≤ a ∧ hostWrite a b s = .fault (.noSuchAddress a)) := by
  unfold hostWrite
  by_cases h : a < s.memBytes
  · exact .inl ⟨h, by simp [h]⟩
  · exact .inr ⟨by omega, by simp [h]⟩

/-- A host read that answers gives the host the byte and changes nothing else. -/
theorem hostRead_next {a : Nat} {s t : State} (h : hostRead a s = .next t) :
    a < s.memBytes ∧ ∃ b, Memory.read s.mem a = some b ∧ t = s.observe (.byte a b) := by
  unfold hostRead at h
  split at h
  · next ha =>
    split at h
    · next b hb => cases h; exact ⟨ha, b, hb, rfl⟩
    · cases h
  · cases h

end Sys2Proof.Machine
end

