-- ==== Sys2Proof/Laws/Absorb.lean ====
section
/-! SUPPORT. What a run of `Absorb` does to the state words and to the pending bytes, in terms of the blocks of the
bytes (42_incremental_buffer.md R80 to R82), and the length of the tail (41_padding_engine.md R72). -/

namespace Sys2Proof.Machine

variable {e : Engine}

theorem pendingBytes_length {nw : Nat} {x : EngineState nw} (h : x.off.toNat ≤ 63) :
    (pendingBytes x).length = x.off.toNat := by
  simp [pendingBytes]
  omega

theorem toBlock_toList {l : List Byte} (h : 64 ≤ l.length) : (toBlock l).toList = l.take 64 := by
  apply List.ext_getElem
  · simp
    omega
  · intro i h1 h2
    simp at h1
    simp [toBlock]
    rw [List.getElem?_eq_getElem (by omega)]
    simp

theorem toBlock_append {l : List Byte} (r : List Byte) (h : 64 ≤ l.length) : toBlock (l ++ r) = toBlock l := by
  apply Vector.toList_inj.1
  rw [toBlock_toList (by rw [List.length_append]; omega), toBlock_toList h,
    List.take_append_of_le_length (by omega)]

theorem take_set_succ (l : List Byte) (k : Nat) (b : Byte) (h : k < l.length) :
    (l.set k b).take (k + 1) = l.take k ++ [b] := by
  rw [List.take_succ_eq_append_getElem (by simpa using h)]
  simp [List.take_set_of_le]

/-- Below a full block `Absorb` only adds the byte to the pending ones. -/
theorem absorb_below {x : EngineState e.nw} (h : x.off.toNat ≤ 62) (b : Byte) :
    (absorb e x b).h = x.h ∧ pendingBytes (absorb e x b) = pendingBytes x ++ [b] := by
  have ho := absorb_off (x := x) (by omega) b
  refine ⟨by rw [absorb_h, if_neg (by omega)], ?_⟩
  unfold pendingBytes
  rw [ho, absorb_buf, Vector.toList_setIfInBounds, show (x.off.toNat + 1) % 64 = x.off.toNat + 1 by omega,
    take_set_succ _ _ _ (by simp; omega)]

/-- At offset 63 `Absorb` compresses the pending bytes and the byte, and nothing is pending. -/
theorem absorb_full {x : EngineState e.nw} (h : x.off.toNat = 63) (b : Byte) :
    (absorb e x b).h = compress e x.h (toBlock (pendingBytes x ++ [b])) ∧ pendingBytes (absorb e x b) = [] := by
  have ho := absorb_off (x := x) (by omega) b
  refine ⟨?_, by unfold pendingBytes; rw [ho, h]; simp⟩
  rw [absorb_h, if_pos h]
  refine congrArg (compress e x.h) (Vector.toList_inj.1 ?_)
  have hl := pendingBytes_length (x := x) (by omega)
  rw [toBlock_toList (by simp [hl, h]), Vector.toList_setIfInBounds, List.take_of_length_le (by simp [hl, h]),
    pendingBytes, ← take_set_succ _ _ _ (by simp; omega), h, List.take_of_length_le (by simp)]

/-- All that a run of `Absorb` over `v` does to the words and to the pending bytes (R81, R82). -/
theorem absorbAll_blocks {x : EngineState e.nw} (h : x.off.toNat ≤ 63) (v : List Byte) :
    (absorbAll e x v).h = foldBlocks e x.h ((x.off.toNat + v.length) / 64) (pendingBytes x ++ v) ∧
    pendingBytes (absorbAll e x v) =
      (pendingBytes x ++ v).drop (64 * ((x.off.toNat + v.length) / 64)) := by
  induction v generalizing x with
  | nil =>
    rw [show (x.off.toNat + ([] : List Byte).length) / 64 = 0 by simp; omega]
    simp [foldBlocks]
  | cons b v ih =>
    have ho := absorb_off h b
    have hl := pendingBytes_length h
    obtain ⟨i1, i2⟩ := ih (x := absorb e x b) (by omega)
    rw [absorbAll_cons, i1, i2, ho]
    rcases Nat.lt_or_ge x.off.toNat 63 with h1 | h1
    · obtain ⟨a1, a2⟩ := absorb_below (x := x) (by omega) b
      rw [a1, a2, show (x.off.toNat + 1) % 64 + v.length = x.off.toNat + (b :: v).length by simp; omega]
      simp
    · have h63 : x.off.toNat = 63 := by omega
      obtain ⟨a1, a2⟩ := absorb_full h63 b
      have hn : (63 + (b :: v).length) / 64 = v.length / 64 + 1 := by rw [List.length_cons]; omega
      have hn2 : (63 + 1) % 64 + v.length = v.length := by omega
      have hlen : (pendingBytes x ++ [b]).length = 64 := by simp [hl, h63]
      have hp : pendingBytes x ++ b :: v = (pendingBytes x ++ [b]) ++ v := by simp
      rewrite [a1, a2, h63, hn, hn2, foldBlocks, hp, toBlock_append v hlen.ge, Nat.mul_add,
        Nat.add_comm (64 * _), ← List.drop_drop, show 64 * 1 = 64 from rfl,
        List.drop_append_of_le_length (by omega), List.drop_of_length_le (by omega)]
      exact ⟨rfl, rfl⟩

/-- `submit` does to the words and the pending bytes what its run of `Absorb` does. -/
theorem submit_blocks {x : EngineState e.nw} (h : x.off.toNat ≤ 63) (v : List Byte) :
    (submit e x v).h = foldBlocks e x.h ((x.off.toNat + v.length) / 64) (pendingBytes x ++ v) ∧
    pendingBytes (submit e x v) = (pendingBytes x ++ v).drop (64 * ((x.off.toNat + v.length) / 64)) :=
  absorbAll_blocks (x := { x with len := x.len + BitVec.ofNat 64 (8 * v.length) }) h v

/-! ### The tail -/

@[simp] theorem lenField_length (e : Engine) (L : BitVec 64) : (lenField e L).length = 8 := by cases e <;> rfl

/-- The two lengths a tail can have (R72, C7). -/
theorem tailLength_cases {off : BitVec 7} (h : off.toNat ≤ 63) :
    (off.toNat ≤ 55 ∧ tailLength off = 64 - off.toNat) ∨
    (56 ≤ off.toNat ∧ tailLength off = 128 - off.toNat) := by
  unfold tailLength
  split <;> omega

theorem tail_length (e : Engine) {off : BitVec 7} (h : off.toNat ≤ 63) (L : BitVec 64) :
    (tail e off L).length = tailLength off := by
  have := tailLength_cases h
  simp [tail]
  omega

/-- The tail fills the last block: nothing is pending after it (R120, R141). -/
theorem absorbTail_off {x : EngineState e.nw} (h : x.off.toNat ≤ 63) : (absorbTail e x).off = 0 := by
  apply BitVec.eq_of_toNat_eq
  rw [absorbTail, absorbAll_off h, tail_length e h, show (0 : BitVec 7).toNat = 0 from rfl]
  rcases tailLength_cases h with ⟨_, ht⟩ | ⟨_, ht⟩ <;> rw [ht] <;> omega

end Sys2Proof.Machine
end

