-- ==== Sys2Proof/Laws/Encoding.lean ====
section
/-! SUPPORT. The fields of a command word as numbers, and the fields of the word of a command (30_encoding.md R45,
R47, R48). -/

namespace Sys2Proof

/-- A concatenation as a number. -/
theorem toNat_append_eq {n m : Nat} (x : BitVec n) (y : BitVec m) :
    (x ++ y).toNat = x.toNat * 2 ^ m + y.toNat := by
  rw [BitVec.toNat_append, ← Nat.shiftLeft_add_eq_or_of_lt y.isLt, Nat.shiftLeft_eq]

/-- A bit field as a number. -/
theorem toNat_field {w n : Nat} (v : BitVec w) (k : Nat) :
    (v.extractLsb' k n).toNat = v.toNat / 2 ^ k % 2 ^ n := by
  rw [BitVec.extractLsb'_toNat, Nat.shiftRight_eq_div_pow]

/-- The word of a command as a number (R45, with `Z = 0`). -/
theorem encode_toNat (i : Instr) : (encode i).toNat =
    (opcodeOf i).toNat * 2 ^ 56 + (engineBit i.engine).toNat * 2 ^ 55 + (operandA i).toNat * 2 ^ 24 +
      (operandB i).toNat := by
  have := (operandA i).isLt
  have := (operandB i).isLt
  unfold encode
  rw [toNat_append_eq, toNat_append_eq, toNat_append_eq, toNat_append_eq]
  simp
  omega

theorem fieldOP_encode (i : Instr) : fieldOP (encode i) = opcodeOf i := by
  apply BitVec.eq_of_toNat_eq
  have := (operandA i).isLt
  have := (operandB i).isLt
  have := (opcodeOf i).isLt
  have := (engineBit i.engine).isLt
  rw [fieldOP, toNat_field, encode_toNat]
  omega

theorem fieldE_encode (i : Instr) : fieldE (encode i) = engineBit i.engine := by
  apply BitVec.eq_of_toNat_eq
  have := (operandA i).isLt
  have := (operandB i).isLt
  have := (engineBit i.engine).isLt
  rw [fieldE, toNat_field, encode_toNat]
  omega

theorem fieldZ_encode (i : Instr) : fieldZ (encode i) = 0 := by
  apply BitVec.eq_of_toNat_eq
  have := (operandA i).isLt
  have := (operandB i).isLt
  have := (engineBit i.engine).isLt
  rw [fieldZ, toNat_field, encode_toNat, show (0 : BitVec 7).toNat = 0 from rfl]
  omega

theorem fieldA_encode (i : Instr) : fieldA (encode i) = operandA i := by
  apply BitVec.eq_of_toNat_eq
  have := (operandA i).isLt
  have := (operandB i).isLt
  rw [fieldA, toNat_field, encode_toNat]
  omega

theorem fieldB_encode (i : Instr) : fieldB (encode i) = operandB i := by
  apply BitVec.eq_of_toNat_eq
  have := (operandB i).isLt
  rw [fieldB, toNat_field, encode_toNat]
  omega

/-- The engine of a word is the one its `E` bit stands for (R51). -/
theorem engineBit_engineOf (w : CmdWord) : engineBit (engineOf w) = fieldE w := by
  unfold engineOf
  generalize fieldE w = b
  revert b
  decide

theorem engineOf_encode (i : Instr) : engineOf (encode i) = i.engine := by
  unfold engineOf
  rw [fieldE_encode]
  cases i.engine <;> rfl

/-- `B` is its upper 16 bits and its low byte (R48, formats I and S). -/
theorem fieldB_toNat (w : CmdWord) : (fieldB w).toNat = (fieldBhi w).toNat * 2 ^ 8 + (fieldBlo w).toNat := by
  simp only [fieldB, fieldBhi, fieldBlo, toNat_field]
  omega

theorem fieldBhi_eq (w : CmdWord) : fieldBhi w = (fieldB w).extractLsb' 8 16 := by
  apply BitVec.eq_of_toNat_eq
  rw [fieldBhi, toNat_field, fieldB, toNat_field, toNat_field]
  omega

theorem fieldBlo_eq (w : CmdWord) : fieldBlo w = (fieldB w).extractLsb' 0 8 := by
  apply BitVec.eq_of_toNat_eq
  rw [fieldBlo, toNat_field, fieldB, toNat_field, toNat_field]
  omega

end Sys2Proof
end

