-- ==== Sys2Proof/Laws/Exec.lean ====
section
/-! SUPPORT. What `exec` can answer, said once for all seven commands (`exec_cases`), and what it does answer where
the checks pass (`exec_of_effect`). Proofs about commands cite these and unfold no meaning. -/

namespace Sys2Proof.Machine

/-! ### The machine after a response -/

@[simp] theorem answered_engine (s : State) (c : BitVec 4) (v : BitVec 64) (e : Engine) :
    (answered s c v).engine e = s.engine e := by simp [answered]

@[simp] theorem answered_mem (s : State) (c : BitVec 4) (v : BitVec 64) : (answered s c v).mem = s.mem := rfl

@[simp] theorem answered_memBytes (s : State) (c : BitVec 4) (v : BitVec 64) :
    (answered s c v).memBytes = s.memBytes := rfl

@[simp] theorem answered_inputs (s : State) (c : BitVec 4) (v : BitVec 64) :
    (answered s c v).inputs = s.inputs := rfl

@[simp] theorem answered_outputs (s : State) (c : BitVec 4) (v : BitVec 64) :
    (answered s c v).outputs = .response ⟨c, v⟩ :: s.outputs := rfl

/-- An error other than `InvariantViolation` only answers (R137). -/
theorem raise_answered {err : Err} (h : err ≠ .invariantViolation) (e : Engine) (cmd : CmdWord) (s : State) :
    raise err e cmd s = .next (answered s (errCode err) cmd) := by
  rw [raise_eq, errorEffect_eq_self h]
  rfl

/-- The machine after a command that succeeded: its engine, `MEM`, and the response `(OK, v)`. -/
def succeeded (s : State) (e : Engine) (x : EngineState e.nw) (m : List Host.Cell) (v : BitVec 64) : State :=
  answered ((s.setEngine e x).setMem m) 0 v

@[simp] theorem succeeded_engine (s : State) (e : Engine) (x : EngineState e.nw) (m : List Host.Cell)
    (v : BitVec 64) : (succeeded s e x m v).engine e = x := by simp [succeeded]

@[simp] theorem succeeded_engine_other (s : State) (e : Engine) (x : EngineState e.nw) (m : List Host.Cell)
    (v : BitVec 64) : (succeeded s e x m v).engine e.other = s.engine e.other := by simp [succeeded]

@[simp] theorem succeeded_mem (s : State) (e : Engine) (x : EngineState e.nw) (m : List Host.Cell)
    (v : BitVec 64) : (succeeded s e x m v).mem = m := by simp [succeeded]

@[simp] theorem succeeded_memBytes (s : State) (e : Engine) (x : EngineState e.nw) (m : List Host.Cell)
    (v : BitVec 64) : (succeeded s e x m v).memBytes = s.memBytes := by simp [succeeded]

@[simp] theorem succeeded_inputs (s : State) (e : Engine) (x : EngineState e.nw) (m : List Host.Cell)
    (v : BitVec 64) : (succeeded s e x m v).inputs = s.inputs := by simp [succeeded]

@[simp] theorem succeeded_outputs (s : State) (e : Engine) (x : EngineState e.nw) (m : List Host.Cell)
    (v : BitVec 64) : (succeeded s e x m v).outputs = .response ⟨0, v⟩ :: s.outputs := by simp [succeeded]

theorem succeeded_same_mem (s : State) (e : Engine) (x : EngineState e.nw) (v : BitVec 64) :
    succeeded s e x s.mem v = answered (s.setEngine e x) 0 v := by
  cases e <;> rfl

theorem succeeded_same (s : State) (e : Engine) (v : BitVec 64) :
    succeeded s e (s.engine e) s.mem v = answered s 0 v := by
  rw [succeeded_same_mem, State.setEngine_engine]

/-! ### Finalize on an engine that has passed the frame -/

/-- The engine `Finalize` leaves (R120), the exit assertion apart. -/
def finalized (e : Engine) (x : EngineState e.nw) : EngineState e.nw :=
  if x.closed then x else closeEngine e (absorbTail e x)

theorem finalized_of_open {e : Engine} {x : EngineState e.nw} (h : x.closed = false) :
    finalized e x = closeEngine e (absorbTail e x) := by rw [finalized, if_neg (by simp [h])]

theorem finalized_of_closed {e : Engine} {x : EngineState e.nw} (h : x.closed = true) : finalized e x = x := by
  rw [finalized, if_pos h]

theorem finalized_len (e : Engine) (x : EngineState e.nw) : (finalized e x).len = x.len := by
  unfold finalized
  split <;> simp

theorem finalized_fault (e : Engine) (x : EngineState e.nw) : (finalized e x).fault = x.fault := by
  unfold finalized
  split <;> simp

theorem finalized_closed (e : Engine) (x : EngineState e.nw) : (finalized e x).closed = true := by
  unfold finalized
  split <;> simp_all

/-- On an engine that has passed the frame `Finalize` goes on to the rest of the command. -/
theorem finalize_ready {e : Engine} {s : State} (h : Ready s e) (cmd : CmdWord) (rest : State → Result) :
    finalize e cmd s rest = rest (s.setEngine e (finalized e (s.engine e))) := by
  rcases finalize_cases e cmd s rest with ⟨h1, h2⟩ | ⟨_, h2, _⟩ | ⟨h1, _, h3⟩
  · rw [h2, finalized_of_closed h1, State.setEngine_engine]
  · exact absurd (absorbTail_off h.2) h2
  · rw [h3, finalized_of_open h1]

/-! ### The effect of a command -/

/-- The effect of a command that succeeds: the engine `x` it leaves, `MEM` after it and the value of the response. -/
def Effect (i : Instr) (s : State) (x : EngineState i.engine.nw) (m : List Host.Cell) (v : BitVec 64) : Prop :=
  match i, x with
  | .init e, x => x = initEngine e (s.engine e) ∧ m = s.mem ∧ v = 0
  | .add e off len, x =>
    (∃ bs, Memory.readBytes s.mem off.toNat len.toNat = .ok bs ∧ x = submit e (s.engine e) bs) ∧
      m = s.mem ∧ v = 0
  | .addi e b, x => x = submit e (s.engine e) [b] ∧ m = s.mem ∧ v = 0
  | .fin e, x => x = finalized e (s.engine e) ∧ m = s.mem ∧ v = 0
  | .getb e dst, x => x = finalized e (s.engine e) ∧
      m = Memory.writeBytes s.mem dst.toNat (finalized e (s.engine e)).digest.toList ∧ v = 0
  | .geth e dst, x => x = finalized e (s.engine e) ∧
      m = Memory.writeBytes s.mem dst.toNat (hex (finalized e (s.engine e)).digest.toList) ∧ v = 0
  | .rdsr e sel, x => x = s.engine e ∧ m = s.mem ∧ statusRegister e sel (s.engine e) = some v

/-- Everything `exec` can answer. -/
inductive ExecCases (i : Instr) (s : State) : Prop
  /-- a faulted engine (R145) -/
  | faulted (framed : makesFrameChecks i = true) (fault : (s.engine i.engine).fault = true)
      (answer : exec i s = .next (answered s 6 (encode i)))
  /-- `OFF ≥ 64` at entry (R141 (a)) -/
  | badOffset (framed : makesFrameChecks i = true) (noFault : (s.engine i.engine).fault = false)
      (off : 64 ≤ (s.engine i.engine).off.toNat)
      (answer : exec i s =
        .next (answered (s.setEngine i.engine { s.engine i.engine with fault := true }) 2 (encode i)))
  /-- an `RDSR` of a selector the engine lacks -/
  | illegal (wf : i.wellFormed = false) (framed : makesFrameChecks i = false)
      (answer : exec i s = .next (answered s 3 (encode i)))
  /-- a check of the body fails (R147 items 4 to 6) -/
  | bodyError (wf : i.wellFormed = true) (framed : makesFrameChecks i = true) (ready : Ready s i.engine)
      (code : bodyCode i s ≠ 0) (answer : exec i s = .next (answered s (bodyCode i s) (encode i)))
  /-- the command succeeds -/
  | success (wf : i.wellFormed = true) (ready : makesFrameChecks i = true → Ready s i.engine)
      (code : bodyCode i s = 0) (x : EngineState i.engine.nw) (m : List Host.Cell) (v : BitVec 64)
      (effect : Effect i s x m v) (answer : exec i s = .next (succeeded s i.engine x m v))
  /-- an `ADD` reads a byte nothing has written (R162; log 4) -/
  | unwritten (e : Engine) (off len : BitVec 24) (a : Nat) (instr : i = .add e off len) (ready : Ready s e)
      (code : bodyCode i s = 0) (read : Memory.readBytes s.mem off.toNat len.toNat = .error a)
      (answer : exec i s = .fault (.unwrittenByte a))

theorem execCases_of_frame {i : Instr} {s : State} {body : State → Result} (hf : makesFrameChecks i = true)
    (he : exec i s = frame i.engine (encode i) s body)
    (k : Ready s i.engine → exec i s = body s → ExecCases i s) : ExecCases i s := by
  rcases frame_cases i.engine (encode i) s body with ⟨h, h'⟩ | ⟨h, ho, h'⟩ | ⟨h, ho, h'⟩
  · exact .faulted hf h (by rw [he, h', raise_answered (by simp)]; rfl)
  · exact .badOffset hf h ho (by rw [he, h', raise_eq]; rfl)
  · exact k ⟨h, ho⟩ (by rw [he, h'])

theorem execCases_add (e : Engine) (off len : BitVec 24) (s : State) : ExecCases (.add e off len) s := by
  refine execCases_of_frame (i := .add e off len) rfl
    (by show execAdd e off len s = _; unfold execAdd; exact rfl) fun hr he => ?_
  unfold operandNat at he
  by_cases h1 : (s.engine e).closed = true
  · have hc : bodyCode (.add e off len) s = 1 := by simp [bodyCode, h1]
    refine .bodyError rfl rfl hr (by rw [hc]; decide) ?_
    rw [he, if_pos h1, hc]
    rfl
  rw [if_neg h1] at he
  by_cases h2 : s.memBytes < off.toNat + len.toNat
  · have hc : bodyCode (.add e off len) s = 4 := by simp only [bodyCode, if_neg h1, if_pos h2]
    refine .bodyError rfl rfl hr (by rw [hc]; decide) ?_
    rw [he, if_pos (not_inBounds_iff.2 h2), hc]
    rfl
  rw [if_neg fun h => h2 (not_inBounds_iff.1 h)] at he
  by_cases h3 : 2 ^ 64 - 1 < (s.engine e).len.toNat + 8 * len.toNat
  · have hc : bodyCode (.add e off len) s = 5 := by simp only [bodyCode, if_neg h1, if_neg h2, if_pos h3]
    refine .bodyError rfl rfl hr (by rw [hc]; decide) ?_
    rw [he, if_pos (lengthOverflows_iff.2 h3), hc]
    rfl
  rw [if_neg fun h => h3 (lengthOverflows_iff.1 h)] at he
  have hc : bodyCode (.add e off len) s = 0 := by simp only [bodyCode, if_neg h1, if_neg h2, if_neg h3]
  cases hm : Memory.readBytes s.mem off.toNat len.toNat with
  | ok v =>
    rw [hm] at he
    exact .success rfl (fun _ => hr) hc _ s.mem 0 ⟨⟨v, hm, rfl⟩, rfl, rfl⟩ (by rw [he, succeeded_same_mem]; rfl)
  | error a =>
    rw [hm] at he
    exact .unwritten e off len a rfl hr hc hm he

theorem execCases_addi (e : Engine) (b : Byte) (s : State) : ExecCases (.addi e b) s := by
  refine execCases_of_frame (i := .addi e b) rfl (by show execAddi e b s = _; unfold execAddi; exact rfl)
    fun hr he => ?_
  by_cases h1 : (s.engine e).closed = true
  · have hc : bodyCode (.addi e b) s = 1 := by simp [bodyCode, h1]
    refine .bodyError rfl rfl hr (by rw [hc]; decide) ?_
    rw [he, if_pos h1, hc]
    rfl
  rw [if_neg h1] at he
  by_cases h2 : 2 ^ 64 - 1 < (s.engine e).len.toNat + 8
  · have hc : bodyCode (.addi e b) s = 5 := by simp only [bodyCode, if_neg h1, if_pos h2]
    refine .bodyError rfl rfl hr (by rw [hc]; decide) ?_
    rw [he, if_pos (lengthOverflows_iff.2 h2), hc]
    rfl
  rw [if_neg fun h => h2 (lengthOverflows_iff.1 h)] at he
  exact .success rfl (fun _ => hr) (by simp only [bodyCode, if_neg h1, if_neg h2]) _ s.mem 0 ⟨rfl, rfl, rfl⟩
    (by rw [he, succeeded_same_mem]; rfl)

theorem execCases_getb (e : Engine) (dst : BitVec 24) (s : State) : ExecCases (.getb e dst) s := by
  refine execCases_of_frame (i := .getb e dst) rfl (by show execGetb e dst s = _; unfold execGetb; exact rfl)
    fun hr he => ?_
  unfold operandNat at he
  by_cases h2 : s.memBytes < dst.toNat + 4 * e.nw
  · have hc : bodyCode (.getb e dst) s = 4 := by simp only [bodyCode, if_pos h2]
    refine .bodyError rfl rfl hr (by rw [hc]; decide) ?_
    rw [he, if_pos (not_inBounds_iff.2 h2), hc]
    rfl
  rw [if_neg fun h => h2 (not_inBounds_iff.1 h), finalize_ready hr] at he
  refine .success rfl (fun _ => hr) (by simp only [bodyCode, if_neg h2]) _ _ _ ⟨rfl, rfl, rfl⟩ ?_
  rw [he, digestBytes, State.engine_setEngine, State.mem_setEngine]
  rfl

theorem execCases_geth (e : Engine) (dst : BitVec 24) (s : State) : ExecCases (.geth e dst) s := by
  refine execCases_of_frame (i := .geth e dst) rfl (by show execGeth e dst s = _; unfold execGeth; exact rfl)
    fun hr he => ?_
  unfold operandNat at he
  by_cases h2 : s.memBytes < dst.toNat + 2 * (4 * e.nw)
  · have hc : bodyCode (.geth e dst) s = 4 := by simp only [bodyCode]; rw [if_pos (by omega)]
    refine .bodyError rfl rfl hr (by rw [hc]; decide) ?_
    rw [he, if_pos (not_inBounds_iff.2 h2), hc]
    rfl
  rw [if_neg fun h => h2 (not_inBounds_iff.1 h), finalize_ready hr] at he
  refine .success rfl (fun _ => hr) (by simp only [bodyCode]; rw [if_neg (by omega)]) _ _ _ ⟨rfl, rfl, rfl⟩ ?_
  rw [he, digestHex, State.engine_setEngine, State.mem_setEngine]
  rfl

theorem execCases_rdsr (e : Engine) (sel : BitVec 8) (s : State) : ExecCases (.rdsr e sel) s := by
  have hsome := statusRegister_isSome e sel (s.engine e)
  cases h : statusRegister e sel (s.engine e) with
  | none =>
    rw [h] at hsome
    exact .illegal (by simpa [Instr.wellFormed] using hsome.symm) rfl (by simp only [exec, execRdsr, h]; rfl)
  | some v =>
    rw [h] at hsome
    exact .success (by simpa [Instr.wellFormed] using hsome.symm) (by simp [makesFrameChecks]) rfl (s.engine e)
      s.mem v ⟨rfl, rfl, h⟩ (by rw [succeeded_same]; simp only [exec, execRdsr, h]; rfl)

/-- Everything a command can do (R60, R137, R146, R147). -/
theorem exec_cases (i : Instr) (s : State) : ExecCases i s := by
  cases i with
  | init e =>
    refine execCases_of_frame (i := .init e) rfl (by show execInit e s = _; unfold execInit; exact rfl)
      fun hr he => ?_
    exact .success rfl (fun _ => hr) rfl (initEngine e (s.engine e)) s.mem 0 ⟨rfl, rfl, rfl⟩
      (by rw [he, succeeded_same_mem]; rfl)
  | add e off len => exact execCases_add e off len s
  | addi e b => exact execCases_addi e b s
  | fin e =>
    refine execCases_of_frame (i := .fin e) rfl (by show execFin e s = _; unfold execFin; exact rfl)
      fun hr he => ?_
    exact .success rfl (fun _ => hr) rfl (finalized e (s.engine e)) s.mem 0 ⟨rfl, rfl, rfl⟩
      (by rw [he, finalize_ready hr, succeeded_same_mem]; rfl)
  | getb e dst => exact execCases_getb e dst s
  | geth e dst => exact execCases_geth e dst s
  | rdsr e sel => exact execCases_rdsr e sel s

theorem Effect.unique {i : Instr} {s : State} {x x' : EngineState i.engine.nw} {m m' : List Host.Cell}
    {v v' : BitVec 64} (h : Effect i s x m v) (h' : Effect i s x' m' v') : x = x' ∧ m = m' ∧ v = v' := by
  cases i with
  | add e off len =>
    obtain ⟨⟨b, hb, rfl⟩, rfl, rfl⟩ := h
    obtain ⟨⟨b', hb', rfl⟩, rfl, rfl⟩ := h'
    rw [hb] at hb'
    cases hb'
    exact ⟨rfl, rfl, rfl⟩
  | rdsr e sel =>
    obtain ⟨rfl, rfl, h⟩ := h
    obtain ⟨rfl, rfl, h'⟩ := h'
    rw [h] at h'
    cases h'
    exact ⟨rfl, rfl, rfl⟩
  | _ =>
    obtain ⟨rfl, rfl, rfl⟩ := h
    obtain ⟨rfl, rfl, rfl⟩ := h'
    exact ⟨rfl, rfl, rfl⟩

/-- Where every check passes, `exec` answers the effect of the command. -/
theorem exec_of_effect {i : Instr} {s : State} {x : EngineState i.engine.nw} {m : List Host.Cell}
    {v : BitVec 64} (hr : makesFrameChecks i = true → Ready s i.engine) (hw : i.wellFormed = true)
    (hc : bodyCode i s = 0) (h : Effect i s x m v) : exec i s = .next (succeeded s i.engine x m v) := by
  cases exec_cases i s with
  | faulted hf hh => rw [(hr hf).1] at hh; cases hh
  | badOffset hf hh ho => have := (hr hf).2; omega
  | illegal hw' => rw [hw] at hw'; cases hw'
  | bodyError hw hf hr hc' => exact absurd hc hc'
  | success _ _ _ x' m' v' hs he => obtain ⟨rfl, rfl, rfl⟩ := h.unique hs; exact he
  | unwritten e off len a hi hr hc hb he =>
    subst hi
    obtain ⟨⟨b, hb', _⟩, _⟩ := h
    rw [hb] at hb'
    cases hb'

end Sys2Proof.Machine
end

