-- ==== Sys2Proof/Laws/HostPort.lean ====
section
/-! SUPPORT. What a reset that cuts a command short leaves (70_reset_and_hazards.md R157), whatever the free choice. -/

namespace Sys2Proof.Machine

/-- A byte of `MEM` after a cut: old, or taken from the other memory, and that only in the range. -/
theorem read_takeBytes (took : Nat → Bool) (new m : List Host.Cell) (a n k : Nat) :
    Memory.read (takeBytes took new m a n) k = Memory.read m k ∨
    (a ≤ k ∧ k < a + n ∧ Memory.read (takeBytes took new m a n) k = Memory.read new k) := by
  induction n generalizing m a with
  | zero => exact .inl rfl
  | succ n ih =>
    rw [takeBytes]
    split
    · next b h1 h2 =>
      rcases ih (Memory.write m a b) (a + 1) with h | ⟨h3, h4, h5⟩
      · by_cases hk : k = a
        · subst hk
          exact .inr ⟨by omega, by omega, by rw [h, Memory.read_write_same, h2]⟩
        · exact .inl (by rw [h, Memory.read_write_other _ _ hk])
      · exact .inr ⟨by omega, by omega, h5⟩
    · rcases ih m (a + 1) with h | ⟨h3, h4, h5⟩
      · exact .inl h
      · exact .inr ⟨by omega, by omega, h5⟩

theorem wf_takeBytes (took : Nat → Bool) (new : List Host.Cell) {m : List Host.Cell} (a n : Nat)
    (h : Memory.wf m = true) : Memory.wf (takeBytes took new m a n) = true := by
  induction n generalizing m a with
  | zero => exact h
  | succ n ih =>
    rw [takeBytes]
    split
    · exact ih (a + 1) (Memory.wf_write a _ h)
    · exact ih (a + 1) h

theorem within_takeBytes (took : Nat → Bool) {k : Nat} {new m : List Host.Cell} (a n : Nat)
    (hn : Memory.within k new = true) (h : Memory.within k m = true) :
    Memory.within k (takeBytes took new m a n) = true := by
  induction n generalizing m a with
  | zero => exact h
  | succ n ih =>
    rw [takeBytes]
    split
    · next b h1 h2 => exact ih (a + 1) (Memory.within_write _ h (Memory.lt_of_read hn h2))
    · exact ih (a + 1) h

/-- A cut keeps the canonical form and the bounds of `MEM` where the whole command keeps them. -/
theorem memCutShort_ok {w : CmdWord} {s : State} (hwf : Memory.wf s.mem = true)
    (hin : Memory.within s.memBytes s.mem = true)
    (h : ∀ i, Memory.within s.memBytes (memAfter i s) = true) :
    Memory.wf (memCutShort w s) = true ∧ Memory.within s.memBytes (memCutShort w s) = true := by
  unfold memCutShort
  split
  · next i hi => exact ⟨wf_takeBytes _ _ _ _ hwf, within_takeBytes _ _ _ (h i) hin⟩
  · exact ⟨hwf, hin⟩

@[simp] theorem State.engine_applyResetDuring (w : CmdWord) (s : State) (e : Engine) :
    (applyResetDuring w s).engine e = (applyReset s).engine e := by cases e <;> rfl

@[simp] theorem State.mem_applyResetDuring (w : CmdWord) (s : State) :
    (applyResetDuring w s).mem = memCutShort w s := rfl

@[simp] theorem State.memBytes_applyResetDuring (w : CmdWord) (s : State) :
    (applyResetDuring w s).memBytes = s.memBytes := rfl

@[simp] theorem State.inputs_applyResetDuring (w : CmdWord) (s : State) :
    (applyResetDuring w s).inputs = s.inputs := rfl

@[simp] theorem State.outputs_applyResetDuring (w : CmdWord) (s : State) :
    (applyResetDuring w s).outputs = s.outputs := rfl

@[simp] theorem State.freeChoices_applyResetDuring (w : CmdWord) (s : State) :
    (applyResetDuring w s).freeChoices = s.freeChoices + 1 := rfl

end Sys2Proof.Machine
end

