-- ==== Sys2Proof/Laws/PerInstr.lean ====
section
/-! SUPPORT. A statement per instruction: the fields of the word of each command (30_encoding.md R47, R48). -/

namespace Sys2Proof.Laws.EncodedFields

/-- The word of `i` has `Z = 0`, an opcode in `0x01 .. 0x07`, the `E` bit of its engine and its operands in `A` and
`B`; and its engine is the one the word selects. -/
def Statement (i : Instr) : Prop :=
  fieldZ (encode i) = 0 ∧ 1 ≤ (fieldOP (encode i)).toNat ∧ (fieldOP (encode i)).toNat ≤ 7 ∧
    fieldE (encode i) = engineBit i.engine ∧ fieldA (encode i) = operandA i ∧ fieldB (encode i) = operandB i ∧
    engineOf (encode i) = i.engine

theorem of_opcode (i : Instr) (h1 : 1 ≤ (opcodeOf i).toNat) (h2 : (opcodeOf i).toNat ≤ 7) : Statement i :=
  ⟨fieldZ_encode i, by rw [fieldOP_encode]; exact h1, by rw [fieldOP_encode]; exact h2, fieldE_encode i,
    fieldA_encode i, fieldB_encode i, engineOf_encode i⟩

theorem init (e : Engine) : Statement (.init e) := of_opcode _ (by simp [opcodeOf]) (by simp [opcodeOf])

theorem add (e : Engine) (off len : BitVec 24) : Statement (.add e off len) :=
  of_opcode _ (by simp [opcodeOf]) (by simp [opcodeOf])

theorem addi (e : Engine) (imm8 : Byte) : Statement (.addi e imm8) :=
  of_opcode _ (by simp [opcodeOf]) (by simp [opcodeOf])

theorem fin (e : Engine) : Statement (.fin e) := of_opcode _ (by simp [opcodeOf]) (by simp [opcodeOf])

theorem getb (e : Engine) (dst : BitVec 24) : Statement (.getb e dst) :=
  of_opcode _ (by simp [opcodeOf]) (by simp [opcodeOf])

theorem geth (e : Engine) (dst : BitVec 24) : Statement (.geth e dst) :=
  of_opcode _ (by simp [opcodeOf]) (by simp [opcodeOf])

theorem rdsr (e : Engine) (sel : BitVec 8) : Statement (.rdsr e sel) :=
  of_opcode _ (by simp [opcodeOf]) (by simp [opcodeOf])

end Sys2Proof.Laws.EncodedFields
end

