-- ==== Sys2Proof/Tests/Slice0.lean ====
section
/-! SUPPORT. Tests, with expected results from the spec (the identifiers V-..., S1 to S4 are those of
95_test_vectors.md, whose `MEM_BYTES` is `0x10000`), and for every obligation that has hypotheses a concrete state
and operands that meet them. -/

namespace Sys2Proof.Tests

open Sys2Proof Sys2Proof.Machine

/-! ### Helpers -/

/-- Right after reset. -/
def start : State := State.reset

/-- The machine with the 128-bit engine at offset `k` and counter `l`, its flags as given. -/
def at128 (k : BitVec 7) (l : BitVec 64) (closed fault : Bool) : State :=
  start.setEngine .e128 { EngineState.reset iv128 with off := k, len := l, closed := closed, fault := fault }

/-- The same of the 256-bit engine. -/
def at256 (k : BitVec 7) (l : BitVec 64) (closed fault : Bool) : State :=
  start.setEngine .e256 { EngineState.reset iv256 with off := k, len := l, closed := closed, fault := fault }

/-- `MEM[0 .. 2]` holds `"abc"`. -/
def abcInMem : State := start.setMem [(0, 0x61), (1, 0x62), (2, 0x63)]

/-- The block `P` of 95_test_vectors.md section 2.4: the bytes `00 01 .. 3F`. -/
def blockP : Block := Vector.ofFn fun i : Fin 64 => BitVec.ofNat 8 i.val

/-- The code of the response a command gets, and its value. -/
def answer (r : Result) : Option (BitVec 4 × BitVec 64) :=
  match r with
  | .next t =>
    match t.outputs with
    | .response r :: _ => some (r.code, r.val)
    | _ => none
  | _ => none

/-- A field of the next state. -/
def after {α : Type} (r : Result) (f : State → α) : Option α :=
  match r with
  | .next t => some (f t)
  | _ => none

/-- `n` bytes of `MEM`. -/
def memAt (s : State) (a n : Nat) : List (Option Byte) := (List.range n).map fun i => Memory.read s.mem (a + i)

/-! ### Well-formedness: the one check, with terms it refuses (V-I7, V-I8, V-I9) -/

theorem test_wf_refuses_h4_of_e128 : (Instr.rdsr .e128 0x14).wellFormed = false := by decide

theorem test_wf_refuses_h8_of_e256 : (Instr.rdsr .e256 0x18).wellFormed = false := by decide

theorem test_wf_refuses_undefined_selector : (Instr.rdsr .e256 0x02).wellFormed = false := by decide

theorem test_wf_accepts : (Instr.rdsr .e128 0x13).wellFormed = true ∧ (Instr.rdsr .e256 0x17).wellFormed = true ∧
    (Instr.add .e256 0xFFFFFF 0xFFFFFF).wellFormed = true := by decide

/-! ### Decoding: words written field by field, `OP E Z A B` (R45, V-D1 to V-D14) -/

theorem test_decode_init :
    decode (0x01#8 ++ 0#1 ++ 0#7 ++ 0#24 ++ 0#24) = .ok (.init .e128) ∧
    decode (0x01#8 ++ 1#1 ++ 0#7 ++ 0#24 ++ 0#24) = .ok (.init .e256) := ⟨rfl, rfl⟩

theorem test_decode_add :
    decode (0x02#8 ++ 0#1 ++ 0#7 ++ 0x000100#24 ++ 0x00000A#24) = .ok (.add .e128 0x000100 10) ∧
    decode (0x02#8 ++ 1#1 ++ 0#7 ++ 0xFFFFFF#24 ++ 0xFFFFFF#24) = .ok (.add .e256 0xFFFFFF 0xFFFFFF) :=
  ⟨rfl, rfl⟩

theorem test_decode_addi :
    decode (0x03#8 ++ 1#1 ++ 0#7 ++ 0#24 ++ 0#16 ++ 0x61#8) = .ok (.addi .e256 0x61) ∧
    decode (0x03#8 ++ 0#1 ++ 0#7 ++ 0#24 ++ 0#16 ++ 0xFF#8) = .ok (.addi .e128 0xFF) := ⟨rfl, rfl⟩

theorem test_decode_fin : decode (0x04#8 ++ 0#1 ++ 0#7 ++ 0#24 ++ 0#24) = .ok (.fin .e128) := rfl

theorem test_decode_getb :
    decode (0x05#8 ++ 1#1 ++ 0#7 ++ 0x001000#24 ++ 0#24) = .ok (.getb .e256 0x001000) := rfl

theorem test_decode_geth :
    decode (0x06#8 ++ 0#1 ++ 0#7 ++ 0x002000#24 ++ 0#24) = .ok (.geth .e128 0x002000) := rfl

theorem test_decode_rdsr :
    decode (0x07#8 ++ 1#1 ++ 0#7 ++ 0#24 ++ 0#16 ++ 0x01#8) = .ok (.rdsr .e256 0x01) ∧
    decode (0x07#8 ++ 0#1 ++ 0#7 ++ 0#24 ++ 0#16 ++ 0x13#8) = .ok (.rdsr .e128 0x13) := ⟨rfl, rfl⟩

theorem test_decode_illegal :
    decode 0x0000000000000000 = .error .unknownOpcode ∧ decode 0xFFFFFFFFFFFFFFFF = .error .nonzeroZ ∧
    decode 0x0800000000000000 = .error .unknownOpcode ∧ decode 0x0101000000000000 = .error .nonzeroZ ∧
    decode 0x0100000001000000 = .error .unusedFieldSet ∧ decode 0x0300000000000100 = .error .unusedFieldSet ∧
    decode 0x0700000000000014 = .error .illegalSelector ∧ decode 0x0780000000000018 = .error .illegalSelector ∧
    decode 0x0700000000000002 = .error .illegalSelector ∧ decode 0x0500000000000001 = .error .unusedFieldSet ∧
    decode 0x0240000000000000 = .error .nonzeroZ := ⟨rfl, rfl, rfl, rfl, rfl, rfl, rfl, rfl, rfl, rfl, rfl⟩

theorem test_encode : encode (.add .e128 0x00010A 54) = 0x020000010A000036 ∧
    encode (.rdsr .e256 0x17) = 0x0780000000000017 := ⟨rfl, rfl⟩

theorem test_table_word : decodeTableWord 64 0x0700000000000001 = some (.rdsr .e128 1) ∧
    decodeTableWord 64 0 = none := ⟨rfl, rfl⟩

/-! ### The assembler (R54) -/

theorem test_assemble_add :
    assembleText "ADD E256, 0x000100, 3 ; three bytes".toList = .ok 0x0280000100000003 := by decide +kernel

theorem test_assemble_register_name :
    assembleText "RDSR E256, H7".toList = .ok 0x0780000000000017 ∧
    assembleText "RDSR E128, H4".toList = .error .noSuchRegister := by decide +kernel

theorem test_assemble_refuses :
    assembleText "ADDI E128, 256".toList = .error .operandTooLarge ∧
    assembleText "FIN E128, 1".toList = .error .wrongOperands := by decide +kernel

theorem test_pseudo_adds : expandPseudo (.adds .e256 "ab".toList) = some [.addi .e256 0x61, .addi .e256 0x62] ∧
    expandPseudo (.nop .e128) = some [.add .e128 0 0] := by decide +kernel

/-! ### The padder and the schedulers (V-P1 to V-P4, V-S1, V-S2, V-S5) -/

theorem test_tail_little_endian : (tail .e128 62 0x0123456789ABCDF0).length = 66 ∧
    (tail .e128 62 0x0123456789ABCDF0).drop 58 = [0xF0, 0xCD, 0xAB, 0x89, 0x67, 0x45, 0x23, 0x01] ∧
    (tail .e128 62 0x0123456789ABCDF0).head? = some 0x80 := ⟨rfl, rfl, rfl⟩

theorem test_tail_big_endian : (tail .e256 5 0xFFFFFFFFFFFFFFF8).length = 59 ∧
    (tail .e256 5 0xFFFFFFFFFFFFFFF8).drop 51 = [0xFF, 0xFF, 0xFF, 0xFF, 0xFF, 0xFF, 0xFF, 0xF8] := ⟨rfl, rfl⟩

theorem test_tail_lengths : tailLength 0 = 64 ∧ tailLength 55 = 9 ∧ tailLength 56 = 72 ∧ tailLength 63 = 65 := by
  decide

theorem test_decode128 : (decode128 blockP)[0] = 0x03020100 ∧ (decode128 blockP)[15] = 0x3F3E3D3C := by
  decide +kernel

theorem test_schedule256 : (schedule256 blockP)[1] = 0x04050607 ∧ (schedule256 blockP)[16] = 0x2D84894C ∧
    (schedule256 blockP)[63] = 0x24A97715 := by decide +kernel

theorem test_word_order : [0, 15, 16, 17, 31, 32, 33, 47, 48, 49, 63].map wIndex128 =
    [0, 15, 1, 6, 12, 5, 8, 2, 0, 7, 9] := by decide

/-! ### The compression functions (V-M1, V-M4, V-N1, V-N4; the ends of the constant tables) -/

theorem test_constants : k128[0] = 0xD76AA478 ∧ k128[63] = 0xEB86D391 ∧ k256[0] = 0x428A2F98 ∧
    k256[63] = 0xC67178F2 := ⟨rfl, rfl, rfl, rfl⟩

theorem test_compress128_zeros : compress128 #v[0, 0, 0, 0] (Vector.replicate 64 0) =
    #v[0xF7CD1C97, 0xA5483681, 0x2B68D832, 0xF90CA639] := by decide +kernel

theorem test_compress128_p : compress128 iv128 blockP = #v[0x9144D9CA, 0xD901E4C9, 0x72FC5B38, 0x625FF51E] := by
  decide +kernel

theorem test_compress256_ones : compress256 (Vector.replicate 8 0xFFFFFFFF) (Vector.replicate 64 0xFF) =
    #v[0x0598127A, 0xAF11706E, 0x77401FFF, 0xD730C549, 0x0B84C867, 0xA98C6CA3, 0xD7F3C0F9, 0x06A78B79] := by
  decide +kernel

theorem test_compress256_p : compress256 iv256 blockP =
    #v[0xFC99A2DF, 0x88F42A7A, 0x7BB9D180, 0x33CDC6A2, 0x0256755F, 0x9D5B9A50, 0x44A9CC31, 0x5ABE84A7] := by
  decide +kernel

/-! ### The serializer (V-Z2, V-Z3, V-Z4) -/

theorem test_serialize128 : (serialize .e128 #v[0x98500190, 0xB04FD23C, 0x7D3F96D6, 0x727FE128]).toList =
    [0x90, 0x01, 0x50, 0x98, 0x3C, 0xD2, 0x4F, 0xB0, 0xD6, 0x96, 0x3F, 0x7D, 0x28, 0xE1, 0x7F, 0x72] := by decide

theorem test_serialize256 : (serialize .e256 #v[0x01234567, 0x89ABCDEF, 0xFEDCBA98, 0x76543210, 0, 0xFFFFFFFF,
    0x80000001, 0x000000FF]).toList.take 12 =
    [0x01, 0x23, 0x45, 0x67, 0x89, 0xAB, 0xCD, 0xEF, 0xFE, 0xDC, 0xBA, 0x98] := by decide

theorem test_hex : hex [0x00, 0x0F, 0xA5, 0xFF, 0x9C] =
    [0x30, 0x30, 0x30, 0x66, 0x61, 0x35, 0x66, 0x66, 0x39, 0x63] := by decide

/-! ### The digest in one shot (S3, S4) -/

theorem test_digest128 : (digestOf .e128 [0x61, 0x62, 0x63]).toList =
    [0x90, 0x01, 0x50, 0x98, 0x3C, 0xD2, 0x4F, 0xB0, 0xD6, 0x96, 0x3F, 0x7D, 0x28, 0xE1, 0x7F, 0x72] := by
  decide +kernel

theorem test_digest256 : (digestOf .e256 [0x61, 0x62, 0x63]).toList.take 8 =
    [0xBA, 0x78, 0x16, 0xBF, 0x8F, 0x01, 0xCF, 0xEA] := by decide +kernel

/-! ### The commands, one step each -/

/-- R62: a closed engine is open again, as new, and keeps its buffer. -/
theorem test_init : after (exec (.init .e128) (at128 0 24 true false)) (fun t => (t.e128.h, t.e128.len, t.e128.closed)) =
    some (iv128, 0, false) := by decide +kernel

/-- V-E12: `INIT` does not repair a fault. -/
theorem test_init_faulted : answer (exec (.init .e256) (at256 64 0 false true)) = some (6, 0x0180000000000000) := by
  decide +kernel

/-- P3 line 1: three bytes from `MEM` leave `OFF = 3`, `LEN = 24`, and the bytes in the buffer. -/
theorem test_add : after (exec (.add .e128 0 3) abcInMem)
    (fun t => (t.e128.off, t.e128.len, t.e128.buf.toList.take 3, t.e128.h)) =
    some (3, 24, [0x61, 0x62, 0x63], iv128) := by decide +kernel

/-- V-E1, V-E2: the end of the range is compared with `MEM_BYTES`, and an empty range at the end is in bounds. -/
theorem test_add_bounds : answer (exec (.add .e128 0x00FFFF 2) start) = some (4, 0x020000FFFF000002) ∧
    answer (exec (.add .e128 0x010000 0) start) = some (0, 0) ∧
    answer (exec (.add .e128 0x010001 0) start) = some (4, 0x0200010001000000) := by decide +kernel

/-- V-A2 to V-A3: the 64th byte compresses the block and empties the buffer. -/
theorem test_addi_fills_block : after (exec (.addi .e128 0x3F)
      (start.setEngine .e128 { EngineState.reset iv128 with off := 63, len := 504, buf := blockP }))
    (fun t => (t.e128.off, t.e128.len, t.e128.h)) =
    some (0, 512, #v[0x9144D9CA, 0xD901E4C9, 0x72FC5B38, 0x625FF51E]) := by decide +kernel

/-- V-E7b, V-E10: a full counter refuses the byte; a bad offset faults the engine. -/
theorem test_addi_errors :
    answer (exec (.addi .e128 0) (at128 63 0xFFFFFFFFFFFFFFF8 false false)) = some (5, 0x0300000000000000) ∧
    answer (exec (.addi .e256 0) (at256 64 0 false false)) = some (2, 0x0380000000000000) ∧
    after (exec (.addi .e256 0) (at256 64 0 false false)) (fun t => t.e256.fault) = some true := by decide +kernel

/-- S2, V-M6: the empty message. -/
theorem test_fin_128 : after (exec (.fin .e128) start) (fun t => (t.e128.h, t.e128.closed)) =
    some (#v[0xD98C1DD4, 0x04B2008F, 0x980980E9, 0x7E42F8EC], true) := by decide +kernel

/-- S3, V-N5: `"abc"` pending in the 256-bit engine. -/
theorem test_fin_256 : after (exec (.fin .e256) (start.setEngine .e256 { EngineState.reset iv256 with
      off := 3, len := 24, buf := (((Vector.replicate 64 0).set 0 0x61).set 1 0x62).set 2 0x63 }))
    (fun t => t.e256.h) =
    some #v[0xBA7816BF, 0x8F01CFEA, 0x414140DE, 0x5DAE2223, 0xB00361A3, 0x96177A9C, 0xB410FF61, 0xF20015AD] := by
  decide +kernel

/-- S2: the bytes of the digest in ascending order, each word least significant byte first. -/
theorem test_getb : after (exec (.getb .e128 0x40) start) (fun t => memAt t 0x40 8) =
    some [some 0xd4, some 0x1d, some 0x8c, some 0xd9, some 0x8f, some 0x00, some 0xb2, some 0x04] := by
  decide +kernel

/-- P4 line 6: nothing is written, and the engine stays open. -/
theorem test_getb_bounds : answer (exec (.getb .e128 0x00FFF1) start) = some (4, 0x050000FFF1000000) ∧
    after (exec (.getb .e128 0x00FFF1) start) (fun t => (t.mem, t.e128.closed)) = some ([], false) := by
  decide +kernel

/-- V-E3b, S1: the characters of the digest, `e3b0c442`, at the highest legal destination. -/
theorem test_geth : after (exec (.geth .e256 0x00FFC0) start) (fun t => memAt t 0xFFC0 8) =
    some [some 0x65, some 0x33, some 0x62, some 0x30, some 0x63, some 0x34, some 0x34, some 0x32] := by
  decide +kernel

/-- V-E3. -/
theorem test_geth_bounds : answer (exec (.geth .e256 0x00FFC1) start) = some (4, 0x068000FFC1000000) := by
  decide +kernel

/-- V-E11: `STATUS` of a faulted engine; the contrast of V-I7: `H4` of the 256-bit engine. -/
theorem test_rdsr : answer (exec (.rdsr .e256 0x00) (at256 64 0 false true)) = some (0, 0x4002) ∧
    answer (exec (.rdsr .e256 0x14) start) = some (0, 0x510E527F) := by decide +kernel

/-- P2 lines 2 and 5: `STATUS` with the offset, `LEN`. -/
theorem test_rdsr_len : answer (exec (.rdsr .e128 0x00) (at128 10 80 false false)) = some (0, 0xA00) ∧
    answer (exec (.rdsr .e128 0x01) (at128 0 0x200 false false)) = some (0, 0x200) := by decide +kernel

/-- V-E13: decoding comes before the fault check. -/
theorem test_illegal_word : answer (execWord 0x0181000000000000 (at256 64 0 false true)) =
    some (3, 0x0181000000000000) := by decide +kernel

/-- A word that does not decode, run by the step. -/
theorem test_step_illegal : answer (step (start.withFetchWord 64 0x0800000000000000)) =
    some (3, 0x0800000000000000) := by decide +kernel

/-- R155, 95_test_vectors.md section 5: reset clears the fault and keeps `MEM`. -/
theorem test_reset : after (step (((at256 64 0 false true).setMem [(0, 7)]).setInputs [.reset]))
    (fun t => (t.e256.fault, t.e256.off, t.mem)) = some (false, 0, [(0, 7)]) := by decide +kernel

/-- R24, R162: a read of a byte nothing has written faults. -/
theorem test_add_unwritten : exec (.add .e128 0 4) abcInMem = .fault (.unwrittenByte 3) := rfl

/-! ### The host's list and the step -/

theorem test_host_write : after (step (start.setInputs [.write 0xFFFF 0xAA])) (fun t => t.mem) =
    some [(0xFFFF, 0xAA)] := by decide +kernel

/-- R157: a reset during `ADDI` gives no response and leaves the engine as reset. -/
theorem test_reset_during : after (step ((at128 5 40 false false).setInputs [.resetDuring 0x0300000000000001]))
    (fun t => (t.e128.off, t.e128.len, t.outputs, t.freeChoices)) = some (0, 0, [], 1) := rfl

/-- R161: a command issued before the response of the last is refused. -/
theorem test_command_early : step (start.setInputs [.commandEarly 0x0100000000000000]) = .refused .beforeResponse :=
  rfl

/-! ### Witnesses: for each obligation with hypotheses, a state and operands that meet them -/

/-- A state that meets the invariant with one engine closed and one open at the last offset of a block. -/
def invState : State :=
  { at128 63 504 false false with
    e256 := { EngineState.reset iv256 with closed := true, digest := serialize256 iv256 }, mem := [(0xFFFF, 1)] }

theorem invState_memory : MemoryOk invState := ⟨rfl, rfl, by decide, by decide⟩

theorem invState_inv : MachineInv invState :=
  ⟨invState_memory, ⟨rfl, by decide, by decide, fun _ => by decide, nofun, nofun⟩,
    ⟨rfl, by decide, by decide, nofun, fun _ => rfl, fun _ => rfl⟩⟩

theorem witness_DecodeOfEncode : (Instr.rdsr .e256 0x17).wellFormed = true := by decide

theorem witness_EncodeOfDecode : decode 0x0280FFFFFFFFFFFF = .ok (.add .e256 0xFFFFFF 0xFFFFFF) := rfl

theorem witness_IllegalExactlyWhen : ∀ i, decode 0x0800000000000000 ≠ .ok i := by
  rw [show decode 0x0800000000000000 = .error .unknownOpcode from rfl]
  simp

/-- The last register of each engine and the first the 128-bit engine lacks, the first operands that do not fit, and a
line that is assembled. -/
theorem witness_AssemblerFollowsSyntax : (3 : Fin 8).val < Engine.e128.nw ∧ Engine.e128.nw ≤ (4 : Fin 8).val ∧
    (7 : Fin 8).val < Engine.e256.nw ∧ 2 ^ 24 ≤ 0x1000000 ∧ 2 ^ 8 ≤ 256 ∧
    assemble ⟨.add, .e256, [.num 256, .num 3]⟩ = .ok 0x0280000100000003 ∧
    assembleInstr ⟨.add, .e256, [.num 256, .num 3]⟩ = .ok (.add .e256 256 3) ∧
    (Instr.add .e256 256 3).wellFormed = true ∧ Mnemonic.add ≠ .rdsr := by decide +kernel

theorem witness_StepRunsTheCommand :
    (start.setInputs [.command 0x0400000000000000]).inputs = .command 0x0400000000000000 :: [] ∧
    decode 0x0400000000000000 = .ok (.fin .e128) ∧
    decodeTableWord 64 0x0400000000000000 = some (.fin .e128) := ⟨rfl, rfl, rfl⟩

theorem witness_IdleStepHoldsState : start.inputs = [] := rfl

/-- The last address and the first that does not exist; a byte that has been written and one that has not. -/
theorem witness_HostAccessesMemory :
    (start.setInputs [.write 0xFFFF 1]).inputs = .write 0xFFFF 1 :: [] ∧ 0xFFFF < start.memBytes ∧
    (start.setInputs [.write 0x10000 1]).inputs = .write 0x10000 1 :: [] ∧ start.memBytes ≤ 0x10000 ∧
    (abcInMem.setInputs [.read 2]).inputs = .read 2 :: [] ∧ Memory.read abcInMem.mem 2 = some 0x63 ∧
    (abcInMem.setInputs [.read 3]).inputs = .read 3 :: [] ∧ Memory.read abcInMem.mem 3 = none ∧
    (start.setInputs [.read 0x10000]).inputs = .read 0x10000 :: [] := by decide +kernel

theorem witness_ResetConstructsBothEngines :
    (invState.setInputs [.reset]).inputs = .reset :: [] ∧
    (∀ rest, (at128 0 0 false true).inputs ≠ .reset :: rest) ∧
    (∀ w rest, (at128 0 0 false true).inputs ≠ .resetDuring w :: rest) ∧
    (∃ t, step (at128 0 0 false true) = .next t) ∧ ((at128 0 0 false true).engine .e128).fault = true :=
  ⟨rfl, fun _ => nofun, fun _ _ => nofun, ⟨_, rfl⟩, rfl⟩

/-- A reset during a `GETB` to the last bytes of `MEM`. -/
theorem witness_ResetDuringCommand :
    (start.setInputs [.resetDuring 0x050000FFF0000000]).inputs = .resetDuring 0x050000FFF0000000 :: [] ∧
    decode 0x050000FFF0000000 = .ok (.getb .e128 0x00FFF0) := ⟨rfl, rfl⟩

theorem witness_StepKeepsInvariant : MachineInv (invState.setInputs [.command 0x0380000000000000]) ∧
    ∃ t, step (invState.setInputs [.command 0x0380000000000000]) = .next t :=
  ⟨⟨invState_memory, invState_inv.e128, invState_inv.e256⟩, ⟨_, rfl⟩⟩

theorem witness_StepKeepsMemoryCanonical : MemoryOk (invState.setInputs [.write 0 5]) ∧
    ∃ t, step (invState.setInputs [.write 0 5]) = .next t := ⟨invState_memory, ⟨_, rfl⟩⟩

theorem witness_DefectErrorsUnreachable : MachineInv invState ∧ ∃ t r,
    execWord 0x0380000000000000 invState = .next t ∧ t.outputs = .response r :: invState.outputs :=
  ⟨invState_inv, _, _, rfl, rfl⟩

theorem witness_DefectErrorsUnreachable_ready : Ready invState .e128 ∧ ∃ t r,
    exec (.fin .e128) invState = .next t ∧ t.outputs = .response r :: invState.outputs :=
  ⟨⟨rfl, by decide⟩, _, _, exec_of_effect (i := .fin .e128) (fun _ => ⟨rfl, by decide⟩) rfl rfl ⟨rfl, rfl, rfl⟩,
    succeeded_outputs ..⟩

theorem witness_ConditionTransitions_init : Ready start .e128 ∧ ∃ t, exec (.init .e128) start = .next t :=
  ⟨⟨rfl, by decide⟩, _, rfl⟩

theorem witness_ConditionTransitions_fin : Ready start .e256 ∧ bodyCode (.fin .e256) start = 0 ∧
    ∃ t, exec (.fin .e256) start = .next t :=
  ⟨⟨rfl, by decide⟩, rfl, _,
    exec_of_effect (i := .fin .e256) (fun _ => ⟨rfl, by decide⟩) rfl rfl ⟨rfl, rfl, rfl⟩⟩

theorem witness_ConditionTransitions_submission : Ready (at128 62 496 false false) .e128 ∧
    ∃ t, exec (.addi .e128 7) (at128 62 496 false false) = .next t := ⟨⟨rfl, by decide⟩, _, rfl⟩

theorem witness_ConditionTransitions_faulted : condition ((at128 0 0 true true).engine .e128) = .faulted ∧
    ∃ t, exec (.rdsr .e128 0) (at128 0 0 true true) = .next t := ⟨by decide, _, rfl⟩

theorem witness_OneResponsePerCommand : ∃ t, execWord 0x0700000000000010 start = .next t := ⟨_, rfl⟩

/-- A word that decodes to nothing, and each check that can fail first, on one command and its boundary. -/
theorem witness_FirstErrorWins : (∀ i, decode 0x0101000000000000 ≠ .ok i) ∧
    decode 0x020000FFFF000002 = .ok (.add .e128 0x00FFFF 2) ∧ (∃ t, execWord 0x020000FFFF000002 start = .next t) ∧
    decode 0x0200010000000000 = .ok (.add .e128 0x010000 0) ∧ (∃ t, execWord 0x0200010000000000 start = .next t) ∧
    decode 0x0300000000000000 = .ok (.addi .e128 0) ∧
    (∃ t, execWord 0x0300000000000000 (at128 63 0xFFFFFFFFFFFFFFF8 true false) = .next t) ∧
    (∃ t, execWord 0x0300000000000000 (at128 64 0 true false) = .next t) := by
  refine ⟨?_, rfl, ⟨_, rfl⟩, rfl, ⟨_, rfl⟩, rfl, ⟨_, rfl⟩, ⟨_, rfl⟩⟩
  rw [show decode 0x0101000000000000 = .error .nonzeroZ from rfl]
  simp

theorem witness_FaultedEngineRefusesCommands : decode 0x0180000000000000 = .ok (.init .e256) ∧
    makesFrameChecks (.init .e256) = true ∧
    ((at256 64 0 false true).engine (Instr.init .e256).engine).fault = true := ⟨rfl, rfl, rfl⟩

theorem witness_BadOffsetFaultsEngine : decode 0x0180000000000000 = .ok (.init .e256) ∧
    makesFrameChecks (.init .e256) = true ∧
    ((at256 64 0 false false).engine (Instr.init .e256).engine).fault = false ∧
    64 ≤ ((at256 64 0 false false).engine (Instr.init .e256).engine).off.toNat := ⟨rfl, rfl, rfl, by decide⟩

theorem witness_SubmissionAfterCloseIsRefused : Ready (at128 0 24 true false) .e128 ∧
    ((at128 0 24 true false).engine .e128).closed = true ∧
    decode 0x0200000000000000 = .ok (.add .e128 0 0) ∧ decode 0x0300000000000064 = .ok (.addi .e128 0x64) ∧
    (∃ t r, exec (.init .e128) start = .next t ∧ t.outputs = .response r :: start.outputs) :=
  ⟨⟨rfl, by decide⟩, rfl, rfl, rfl, _, _, rfl, rfl⟩

/-- The first destination and source past the end, for each of the three commands. -/
theorem witness_RangePastMemoryIsRefused : decode 0x020000FFFF000002 = .ok (.add .e128 0x00FFFF 2) ∧
    decode 0x050000FFF1000000 = .ok (.getb .e128 0x00FFF1) ∧
    decode 0x060000FFE1000000 = .ok (.geth .e128 0x00FFE1) ∧ Ready start .e128 ∧ (start.engine .e128).closed = false ∧
    start.memBytes < (0x00FFFF : BitVec 24).toNat + (2 : BitVec 24).toNat ∧
    start.memBytes < (0x00FFF1 : BitVec 24).toNat + 4 * Engine.e128.nw ∧
    start.memBytes < (0x00FFE1 : BitVec 24).toNat + 2 * (4 * Engine.e128.nw) :=
  ⟨rfl, rfl, rfl, by decide⟩

theorem witness_LengthOverflowIsRefused : decode 0x0200000000000001 = .ok (.add .e128 0 1) ∧
    decode 0x0300000000000000 = .ok (.addi .e128 0) ∧ Ready (at128 63 0xFFFFFFFFFFFFFFF8 false false) .e128 ∧
    ((at128 63 0xFFFFFFFFFFFFFFF8 false false).engine .e128).closed = false ∧
    (0 : BitVec 24).toNat + (1 : BitVec 24).toNat ≤ (at128 63 0xFFFFFFFFFFFFFFF8 false false).memBytes ∧
    2 ^ 64 - 1 < ((at128 63 0xFFFFFFFFFFFFFFF8 false false).engine .e128).len.toNat + 8 * (1 : BitVec 24).toNat ∧
    2 ^ 64 - 1 < ((at128 63 0xFFFFFFFFFFFFFFF8 false false).engine .e128).len.toNat + 8 :=
  ⟨rfl, rfl, by decide⟩

theorem witness_EnginesAreIndependent : ∃ t, exec (.addi .e128 1) invState = .next t := ⟨_, rfl⟩

theorem witness_InitMakesEngineNew : Ready (at128 0 24 true false) .e128 := ⟨rfl, by decide⟩

theorem witness_RdsrReadsRegister : legalSel .e128 0x14 = false ∧ legalSel .e256 0x18 = false ∧
    legalSel .e256 0x14 = true ∧ legalSel .e128 0x13 = true := by decide

/-- An `ADD` of three bytes from the bottom of `MEM`. -/
theorem witness_AddSubmitsBytes : Ready abcInMem .e128 ∧ (abcInMem.engine .e128).closed = false ∧
    (0 : BitVec 24).toNat + (3 : BitVec 24).toNat ≤ abcInMem.memBytes ∧
    (abcInMem.engine .e128).len.toNat + 8 * (3 : BitVec 24).toNat ≤ 2 ^ 64 - 1 ∧
    Written abcInMem (0 : BitVec 24).toNat (3 : BitVec 24).toNat := by decide +kernel

/-- An `ADD` of the last byte of `MEM`, at offset 63. -/
theorem witness_AddSubmitsBytes_edge : Ready invState .e128 ∧ (invState.engine .e128).closed = false ∧
    (0xFFFF : BitVec 24).toNat + (1 : BitVec 24).toNat ≤ invState.memBytes ∧
    (invState.engine .e128).len.toNat + 8 * (1 : BitVec 24).toNat ≤ 2 ^ 64 - 1 ∧
    Written invState (0xFFFF : BitVec 24).toNat (1 : BitVec 24).toNat := by decide +kernel

/-- Offset 62 and offset 63, and the greatest counter a byte may be added to. -/
theorem witness_AddiSubmitsByte : Ready (at128 62 496 false false) .e128 ∧
    ((at128 62 496 false false).engine .e128).off.toNat ≤ 62 ∧
    Ready (at128 63 0xFFFFFFFFFFFFFFF0 false false) .e128 ∧
    ((at128 63 0xFFFFFFFFFFFFFFF0 false false).engine .e128).closed = false ∧
    ((at128 63 0xFFFFFFFFFFFFFFF0 false false).engine .e128).off.toNat = 63 ∧
    ((at128 63 0xFFFFFFFFFFFFFFF0 false false).engine .e128).len.toNat + 8 ≤ 2 ^ 64 - 1 := by decide

theorem witness_AddFaultsOnUnwrittenByte : Ready abcInMem .e128 ∧ (abcInMem.engine .e128).closed = false ∧
    (1 : BitVec 24).toNat + (4 : BitVec 24).toNat ≤ abcInMem.memBytes ∧
    (abcInMem.engine .e128).len.toNat + 8 * (4 : BitVec 24).toNat ≤ 2 ^ 64 - 1 ∧ 2 < (4 : BitVec 24).toNat ∧
    Written abcInMem (1 : BitVec 24).toNat 2 ∧ Memory.read abcInMem.mem ((1 : BitVec 24).toNat + 2) = none := by
  decide +kernel

theorem witness_AddiActsAsAddOfOneByte : (2 : BitVec 24).toNat < abcInMem.memBytes ∧
    Memory.read abcInMem.mem (2 : BitVec 24).toNat = some 0x63 := by decide +kernel

theorem witness_SubmissionFrame : ∃ t, exec (.addi .e256 1) start = .next t := ⟨_, rfl⟩

theorem witness_CounterCountsInput :
    (∃ t r, exec (.add .e128 0 3) abcInMem = .next t ∧ t.outputs = .response r :: abcInMem.outputs) ∧
    (∃ t r, exec (.addi .e256 1) start = .next t ∧ t.outputs = .response r :: start.outputs) ∧
    (∃ t, exec (.getb .e128 0x00FFF0) start = .next t) :=
  ⟨⟨_, _, exec_of_effect (i := .add .e128 0 3) (fun _ => ⟨rfl, by decide⟩) rfl (by decide)
      ⟨⟨[0x61, 0x62, 0x63], by decide +kernel, rfl⟩, rfl, rfl⟩, succeeded_outputs ..⟩, ⟨_, _, rfl, rfl⟩,
    ⟨_, exec_of_effect (i := .getb .e128 0x00FFF0) (fun _ => ⟨rfl, by decide⟩) rfl (by decide) ⟨rfl, rfl, rfl⟩⟩⟩

/-- A chunk that just fills the buffer, and one a byte shorter. -/
theorem witness_ChunkCopyIsAbsorb : (at128 62 0 false false).e128.off.toNat ≤ 63 ∧
    [0x01, 0x02].length ≤ 64 - (at128 62 0 false false).e128.off.toNat ∧
    [0x01].length ≤ 64 - (at128 62 0 false false).e128.off.toNat := by decide

theorem witness_ChunkingInvariance : Ready abcInMem .e256 ∧ (abcInMem.engine .e256).closed = false ∧
    (1 : BitVec 24).toNat + (2 : BitVec 24).toNat < 2 ^ 24 ∧ (0 : BitVec 24).toNat + (1 : BitVec 24).toNat < 2 ^ 24 ∧
    (0 : BitVec 24).toNat + (1 : BitVec 24).toNat + (2 : BitVec 24).toNat ≤ abcInMem.memBytes ∧
    (abcInMem.engine .e256).len.toNat + 8 * ((1 : BitVec 24).toNat + (2 : BitVec 24).toNat) ≤ 2 ^ 64 - 1 ∧
    Written abcInMem (0 : BitVec 24).toNat ((1 : BitVec 24).toNat + (2 : BitVec 24).toNat) := by decide +kernel

theorem witness_TailLayout : (0 : BitVec 7).toNat ≤ 63 ∧ (55 : BitVec 7).toNat ≤ 63 ∧ (56 : BitVec 7).toNat ≤ 63 ∧
    (63 : BitVec 7).toNat ≤ 63 := by decide

theorem witness_TailByOffset : (at128 55 440 false false).e128.off.toNat ≤ 55 ∧
    56 ≤ (at128 56 448 false false).e128.off.toNat ∧ (at128 56 448 false false).e128.off.toNat ≤ 63 ∧
    (at128 63 504 false false).e128.off.toNat ≤ 63 := by decide

theorem witness_RotateFormulas : 0 < 1 ∧ 1 < 32 ∧ 0 < 31 ∧ 31 < 32 := by decide

/-- The round groups meet at 15 and 16, 31 and 32, 47 and 48. -/
theorem witness_AuxFunctionsBitwise : (15 : Fin 64).val < 16 ∧ (16 ≤ (16 : Fin 64).val ∧ (31 : Fin 64).val < 32) ∧
    (32 ≤ (32 : Fin 64).val ∧ (47 : Fin 64).val < 48) ∧ 48 ≤ (48 : Fin 64).val := by decide

/-- The first and the last byte of the length field. -/
theorem witness_LengthFieldByteOrder : 0 < 8 ∧ 7 < 8 := by decide

/-- The last word taken from the block, the first computed one and the last. -/
theorem witness_Schedule256Recurrence : 15 < 16 ∧ (16 ≤ 16 ∧ 16 < 64) ∧ (16 ≤ 63 ∧ 63 < 64) := by decide

theorem witness_SigmaFunctionsBitwise : 0 < 32 ∧ 31 < 32 := by decide

theorem witness_ChMajBitwise : 0 < 32 ∧ 31 < 32 := by decide

theorem witness_HexCharacters : 0 < ([0x9A] : List Byte).length ∧ 9 = (([0x9A] : List Byte).getD 0 0).toNat / 16 ∧
    10 = (([0x9A] : List Byte).getD 0 0).toNat % 16 := by decide

/-- Open at the offsets 55 and 56, and closed. -/
theorem witness_FinClosesEngine : Ready (at128 55 440 false false) .e128 ∧
    ((at128 55 440 false false).engine .e128).closed = false ∧ Ready (at128 56 448 false false) .e128 ∧
    ((at128 56 448 false false).engine .e128).closed = false ∧ Ready (at128 0 0 true false) .e128 ∧
    ((at128 0 0 true false).engine .e128).closed = true := by decide

/-- The highest legal destinations (P4 line 7, V-E3b). -/
theorem witness_GetbWritesDigest : Ready start .e128 ∧
    (0x00FFF0 : BitVec 24).toNat + 4 * Engine.e128.nw ≤ start.memBytes := by decide

theorem witness_GethWritesHex : Ready start .e256 ∧
    (0x00FFC0 : BitVec 24).toNat + 2 * (4 * Engine.e256.nw) ≤ start.memBytes := by decide

theorem witness_FinalizingFrame : (∃ t, exec (.fin .e128) start = .next t) ∧
    (∃ t, exec (.getb .e128 0x00FFF0) start = .next t) ∧ (∃ t, exec (.geth .e256 0x00FFC0) start = .next t) :=
  ⟨⟨_, exec_of_effect (i := .fin .e128) (fun _ => ⟨rfl, by decide⟩) rfl rfl ⟨rfl, rfl, rfl⟩⟩,
    ⟨_, exec_of_effect (i := .getb .e128 0x00FFF0) (fun _ => ⟨rfl, by decide⟩) rfl (by decide) ⟨rfl, rfl, rfl⟩⟩,
    ⟨_, exec_of_effect (i := .geth .e256 0x00FFC0) (fun _ => ⟨rfl, by decide⟩) rfl (by decide) ⟨rfl, rfl, rfl⟩⟩⟩

theorem witness_ClosedEngineIsReadOnly : Ready (at128 0 24 true false) .e128 ∧
    ((at128 0 24 true false).engine .e128).closed = true ∧ (Instr.fin .e128 ≠ .init .e128) ∧
    ∃ t, exec (.fin .e128) (at128 0 24 true false) = .next t :=
  ⟨⟨rfl, by decide⟩, rfl, nofun, _, rfl⟩

/-- Two `GETB` of one engine, one after the other. -/
theorem witness_ClosedEngineIsReadOnly_getb : Ready start .e128 ∧
    (0x10 : BitVec 24).toNat + 4 * Engine.e128.nw ≤ start.memBytes ∧
    (0x18 : BitVec 24).toNat + 4 * Engine.e128.nw ≤ start.memBytes ∧
    ∃ t u, exec (.getb .e128 0x10) start = .next t ∧ exec (.getb .e128 0x18) t = .next u :=
  ⟨⟨rfl, by decide⟩, by decide, by decide, _, _,
    exec_of_effect (i := .getb .e128 0x10) (fun _ => ⟨rfl, by decide⟩) rfl (by decide) ⟨rfl, rfl, rfl⟩,
    exec_of_effect (i := .getb .e128 0x18)
      (fun _ => ⟨by dsimp only [Instr.engine]; rw [succeeded_engine, finalized_fault]; rfl,
        by dsimp only [Instr.engine]
           rw [succeeded_engine, finalized_of_open rfl, closeEngine_off, absorbTail_off (by decide)]
           decide⟩)
      rfl (by simp only [bodyCode, succeeded_memBytes]; decide) ⟨rfl, rfl, rfl⟩⟩

/-- An engine that holds one byte. -/
theorem holds_one : Holds .e128 [0] ((at128 1 8 false false).engine .e128) :=
  ⟨rfl, rfl, rfl, rfl, rfl, fun i hi => by
    have h0 : i = 0 := by simpa using hi
    subst h0
    rfl⟩

theorem witness_AcceptedBytesAreHeld : Ready start .e128 ∧ (∃ t, exec (.init .e128) start = .next t) ∧
    Holds .e128 [0] ((at128 1 8 false false).engine .e128) ∧
    (∃ t v, exec (.addi .e128 5) (at128 1 8 false false) = .next t ∧ t.outputs = .response ⟨0, v⟩ :: []) :=
  ⟨⟨rfl, by decide⟩, ⟨_, rfl⟩, holds_one, _, _, rfl, rfl⟩

theorem witness_AcceptedBytesAreHeld_add :
    Holds .e128 [0] (((at128 1 8 false false).setMem [(5, 0x61), (6, 0x62)]).engine .e128) ∧
    ([0x61, 0x62] : List Byte).length = (2 : BitVec 24).toNat ∧
    (∀ i, i < (2 : BitVec 24).toNat → Memory.read [(5, 0x61), (6, 0x62)] ((5 : BitVec 24).toNat + i) =
      ([0x61, 0x62] : List Byte)[i]?) ∧
    ∃ t v, exec (.add .e128 5 2) ((at128 1 8 false false).setMem [(5, 0x61), (6, 0x62)]) = .next t ∧
      t.outputs = .response ⟨0, v⟩ :: [] :=
  ⟨holds_one, rfl, by decide +kernel, _, _,
    exec_of_effect (i := .add .e128 5 2) (fun _ => ⟨rfl, by decide⟩) rfl (by decide)
      ⟨⟨[0x61, 0x62], by decide +kernel, rfl⟩, rfl, rfl⟩, succeeded_outputs ..⟩

theorem witness_FinalizeGivesMessageDigest : Holds .e128 [0] ((at128 1 8 false false).engine .e128) ∧
    ∃ t, exec (.fin .e128) (at128 1 8 false false) = .next t :=
  ⟨holds_one, _, exec_of_effect (i := .fin .e128) (fun _ => ⟨rfl, by decide⟩) rfl rfl ⟨rfl, rfl, rfl⟩⟩

theorem witness_IncrementalHashIsOneShotHash : Ready (at128 0 24 true false) .e128 ∧
    ([0x61, 0x62, 0x63] : List Byte).length < 2 ^ 61 := ⟨⟨rfl, by decide⟩, by decide⟩

theorem witness_HashbWritesMessageDigest : Ready abcInMem .e256 ∧
    (0 : BitVec 24).toNat + (3 : BitVec 24).toNat ≤ abcInMem.memBytes ∧
    (0x00FFE0 : BitVec 24).toNat + 4 * Engine.e256.nw ≤ abcInMem.memBytes ∧
    ([0x61, 0x62, 0x63] : List Byte).length = (3 : BitVec 24).toNat ∧
    (∀ i, i < (3 : BitVec 24).toNat → Memory.read abcInMem.mem ((0 : BitVec 24).toNat + i) =
      ([0x61, 0x62, 0x63] : List Byte)[i]?) := by decide +kernel

theorem witness_NopChangesNothing : Ready start .e128 ∧ (start.engine .e128).closed = false ∧
    Ready (at128 0 24 true false) .e128 ∧ ((at128 0 24 true false).engine .e128).closed = true := by decide

end Sys2Proof.Tests
end

section
/-! The fields of a word, what the decoder accepts said once (`decode_eq_ok_iff`), and with them R45, R46, R48 and R52
of 30_encoding.md and R139 of 60_exceptions.md. -/

namespace Sys2Proof

open Sys2Proof.Machine

/-! ### The fields determine the word (R45) -/

/-- R45's formula. -/
theorem toNat_eq_fields (w : CmdWord) : w.toNat = (fieldOP w).toNat * 2 ^ 56 + (fieldE w).toNat * 2 ^ 55 +
    (fieldZ w).toNat * 2 ^ 48 + (fieldA w).toNat * 2 ^ 24 + (fieldB w).toNat := by
  have hw := w.isLt
  simp only [fieldOP, fieldE, fieldZ, fieldA, fieldB, toNat_field]
  omega

/-- Two words with the same five fields are one word. -/
theorem eq_of_fields {w v : CmdWord} (hOP : fieldOP w = fieldOP v) (hE : fieldE w = fieldE v)
    (hZ : fieldZ w = fieldZ v) (hA : fieldA w = fieldA v) (hB : fieldB w = fieldB v) : w = v := by
  apply BitVec.eq_of_toNat_eq
  rw [toNat_eq_fields w, toNat_eq_fields v, hOP, hE, hZ, hA, hB]

/-- `B` is `B[23:8]` over `B[7:0]`. -/
theorem fieldB_eq_iff (w : CmdWord) (b : BitVec 24) :
    fieldB w = b ↔ fieldBhi w = b.extractLsb' 8 16 ∧ fieldBlo w = b.extractLsb' 0 8 := by
  refine ⟨fun h => ⟨by rw [fieldBhi_eq, h], by rw [fieldBlo_eq, h]⟩, fun ⟨hhi, hlo⟩ => ?_⟩
  apply BitVec.eq_of_toNat_eq
  have hb := b.isLt
  rw [fieldB_toNat, hhi, hlo, toNat_field, toNat_field]
  omega

theorem toNat_zeroExtend_24 (b : BitVec 8) : (b.zeroExtend 24).toNat = b.toNat :=
  BitVec.toNat_setWidth_of_le (by decide)

/-- `B` holds an 8-bit operand exactly where `B[23:8]` is zero and `B[7:0]` is the operand (R49). -/
theorem fieldB_eq_zeroExtend_iff (w : CmdWord) (b : BitVec 8) :
    fieldB w = b.zeroExtend 24 ↔ fieldBhi w = 0 ∧ fieldBlo w = b := by
  have hhi : (b.zeroExtend 24).extractLsb' 8 16 = 0 := by
    apply BitVec.eq_of_toNat_eq
    rw [toNat_field, toNat_zeroExtend_24, Nat.div_eq_of_lt b.isLt]
    rfl
  have hlo : (b.zeroExtend 24).extractLsb' 0 8 = b := by
    apply BitVec.eq_of_toNat_eq
    rw [toNat_field, toNat_zeroExtend_24, pow_zero, Nat.div_one, Nat.mod_eq_of_lt b.isLt]
  rw [fieldB_eq_iff, hhi, hlo]

theorem fieldB_eq_zero_iff (w : CmdWord) : fieldB w = 0#24 ↔ fieldBhi w = 0#16 ∧ fieldBlo w = 0#8 :=
  fieldB_eq_iff w 0

/-! ### What the decoder accepts (R50) -/

theorem guardZero_eq_ok_iff {z : Bool} {i j : Instr} : guardZero z i = .ok j ↔ z = true ∧ i = j := by
  cases z <;> simp [guardZero]

theorem decodeRdsr_eq_ok_iff {w : CmdWord} {j : Instr} : decodeRdsr w = .ok j ↔
    (fieldA w = 0 ∧ fieldBhi w = 0) ∧ legalSel (engineOf w) (fieldBlo w) = true ∧
      .rdsr (engineOf w) (fieldBlo w) = j := by
  unfold decodeRdsr
  split
  · next h => split <;> simp_all
  · next h => exact ⟨nofun, fun hj => absurd hj.1 h⟩

/-- A word decodes to a command only if its fields are those of the command and the command exists. -/
theorem fields_of_decode {w : CmdWord} {i : Instr} (h : decode w = .ok i) :
    fieldZ w = 0 ∧ fieldOP w = opcodeOf i ∧ engineOf w = i.engine ∧ fieldA w = operandA i ∧
      fieldB w = operandB i ∧ i.wellFormed = true := by
  unfold decode at h
  split_ifs at h with hne h1 h2 h3 h4 h5 h6 h7
  all_goals have hZ := not_not.1 hne
  · obtain ⟨hz, rfl⟩ := guardZero_eq_ok_iff.1 h
    obtain ⟨hA, hB⟩ : fieldA w = 0 ∧ fieldB w = 0 := by simpa using hz
    exact ⟨hZ, h1, rfl, hA, hB, rfl⟩
  · obtain rfl := Except.ok.inj h
    exact ⟨hZ, h2, rfl, rfl, rfl, rfl⟩
  · obtain ⟨hz, rfl⟩ := guardZero_eq_ok_iff.1 h
    obtain ⟨hA, hhi⟩ : fieldA w = 0 ∧ fieldBhi w = 0 := by simpa using hz
    exact ⟨hZ, h3, rfl, hA, (fieldB_eq_zeroExtend_iff w _).2 ⟨hhi, rfl⟩, rfl⟩
  · obtain ⟨hz, rfl⟩ := guardZero_eq_ok_iff.1 h
    obtain ⟨hA, hB⟩ : fieldA w = 0 ∧ fieldB w = 0 := by simpa using hz
    exact ⟨hZ, h4, rfl, hA, hB, rfl⟩
  · obtain ⟨hz, rfl⟩ := guardZero_eq_ok_iff.1 h
    exact ⟨hZ, h5, rfl, rfl, beq_iff_eq.1 hz, rfl⟩
  · obtain ⟨hz, rfl⟩ := guardZero_eq_ok_iff.1 h
    exact ⟨hZ, h6, rfl, rfl, beq_iff_eq.1 hz, rfl⟩
  · obtain ⟨⟨hA, hhi⟩, hsel, rfl⟩ := decodeRdsr_eq_ok_iff.1 h
    exact ⟨hZ, h7, rfl, hA, (fieldB_eq_zeroExtend_iff w _).2 ⟨hhi, rfl⟩, hsel⟩

/-- A word decodes to a command exactly if its fields are those of the command and the command exists. -/
theorem decode_eq_ok_iff (w : CmdWord) (i : Instr) : decode w = .ok i ↔
    fieldZ w = 0 ∧ fieldOP w = opcodeOf i ∧ engineOf w = i.engine ∧ fieldA w = operandA i ∧
      fieldB w = operandB i ∧ i.wellFormed = true := by
  refine ⟨fields_of_decode, fun ⟨hZ, hOP, hE, hA, hB, hwf⟩ => ?_⟩
  cases i with
  | addi e b | rdsr e b =>
    obtain ⟨hhi, hlo⟩ := (fieldB_eq_zeroExtend_iff w b).1 hB
    simp_all [decode, decodeRdsr, guardZero, opcodeOf, operandA, Instr.wellFormed]
  | _ => simp_all [decode, guardZero, opcodeOf, operandA, operandB]

/-- A legal word is the word of the command it decodes to (R50). -/
theorem encode_eq_of_decode {w : CmdWord} {i : Instr} (h : decode w = .ok i) : encode i = w := by
  obtain ⟨hZ, hOP, hE, hA, hB, -⟩ := fields_of_decode h
  exact eq_of_fields (by rw [fieldOP_encode, hOP]) (by rw [fieldE_encode, ← hE, engineBit_engineOf])
    (by rw [fieldZ_encode, hZ]) (by rw [fieldA_encode, hA]) (by rw [fieldB_encode, hB])

/-! ### The formula of the command word (R45) -/

/-- Settles O3: the fields as quotients of the word, and `encode_toNat` at each command. -/
theorem wordFormula : Obligations.WordFormula := by
  refine ⟨⟨rfl, rfl, engineBit_engineOf⟩, toNat_eq_fields, ?_, ?_, ?_, ?_, ?_, ?_, ?_⟩ <;> intros <;>
    simp only [encode_toNat, opcodeOf, operandA, operandB, toNat_zeroExtend_24] <;> simp

/-! ### Match and mask (R48) -/

/-- A masked word is compared field by field. -/
theorem and_eq_iff_fields (w mask m : CmdWord) : w &&& mask = m ↔
    fieldOP w &&& fieldOP mask = fieldOP m ∧ fieldE w &&& fieldE mask = fieldE m ∧
      fieldZ w &&& fieldZ mask = fieldZ m ∧ fieldA w &&& fieldA mask = fieldA m ∧
      fieldBhi w &&& fieldBhi mask = fieldBhi m ∧ fieldBlo w &&& fieldBlo mask = fieldBlo m := by
  have hand (k n : Nat) : (w &&& mask).extractLsb' k n = w.extractLsb' k n &&& mask.extractLsb' k n :=
    BitVec.extractLsb'_and
  constructor
  · rintro rfl
    simp only [fieldOP, fieldE, fieldZ, fieldA, fieldBhi, fieldBlo, hand, and_self]
  · simp only [fieldOP, fieldE, fieldZ, fieldA, fieldBhi, fieldBlo, ← hand]
    intro ⟨hOP, hE, hZ, hA, hhi, hlo⟩
    refine eq_of_fields hOP hE hZ hA ((fieldB_eq_iff _ _).2 ⟨?_, ?_⟩)
    · rw [← fieldBhi_eq]; exact hhi
    · rw [← fieldBlo_eq]; exact hlo

/-- The mask of a format of R48: `OP` and `Z` are compared, `E` is free, and each of `A`, `B[23:8]` and `B[7:0]` is
compared where the format marks it 0. -/
def formatMask (a bhi blo : Bool) : CmdWord :=
  BitVec.fill 8 true ++ BitVec.fill 1 false ++ BitVec.fill 7 true ++ BitVec.fill 24 a ++ BitVec.fill 16 bhi ++
    BitVec.fill 8 blo

/-- Each field of the mask of a format is all ones or all zeros, as the format says. -/
theorem fields_formatMask (a bhi blo : Bool) :
    fieldOP (formatMask a bhi blo) = BitVec.fill 8 true ∧ fieldE (formatMask a bhi blo) = BitVec.fill 1 false ∧
      fieldZ (formatMask a bhi blo) = BitVec.fill 7 true ∧ fieldA (formatMask a bhi blo) = BitVec.fill 24 a ∧
      fieldBhi (formatMask a bhi blo) = BitVec.fill 16 bhi ∧ fieldBlo (formatMask a bhi blo) = BitVec.fill 8 blo := by
  revert a bhi blo
  decide

theorem and_fill_eq_zero_iff {n : Nat} (x : BitVec n) (b : Bool) :
    x &&& BitVec.fill n b = 0 ↔ (b = true → x = 0) := by
  cases b <;> simp [BitVec.fill, BitVec.neg_one_eq_allOnes]

theorem and_fill_true {n : Nat} (x : BitVec n) : x &&& BitVec.fill n true = x := by
  simp [BitVec.fill, BitVec.neg_one_eq_allOnes]

/-- A word matches a command with zero operands under the mask of a format exactly if the opcode is the command's and
the fields the format marks 0 are zero. -/
theorem and_formatMask_eq_iff (w : CmdWord) {i : Instr} (hE : i.engine = .e128) (hA : operandA i = 0)
    (hB : operandB i = 0) (a bhi blo : Bool) : w &&& formatMask a bhi blo = encode i ↔
      fieldZ w = 0 ∧ fieldOP w = opcodeOf i ∧ (a = true → fieldA w = 0) ∧ (bhi = true → fieldBhi w = 0) ∧
        (blo = true → fieldBlo w = 0) := by
  obtain ⟨mOP, mE, mZ, mA, mhi, mlo⟩ := fields_formatMask a bhi blo
  obtain ⟨ihi, ilo⟩ : fieldBhi (encode i) = 0 ∧ fieldBlo (encode i) = 0 :=
    (fieldB_eq_zero_iff _).1 ((fieldB_encode i).trans hB)
  rw [and_eq_iff_fields, mOP, mE, mZ, mA, mhi, mlo, fieldOP_encode, fieldE_encode, fieldZ_encode, fieldA_encode,
    ihi, ilo, hE, hA, and_fill_true, and_fill_eq_zero_iff, and_fill_eq_zero_iff, and_fill_eq_zero_iff,
    and_fill_eq_zero_iff]
  simp [engineBit, and_left_comm]

/-- Settles O4: the fields `decode_eq_ok_iff` asks for are those the mask of the format compares. -/
theorem matchAndMask : Obligations.MatchAndMask := by
  intro w
  refine ⟨?_, ?_, ?_, ?_, ?_, ?_, ?_⟩ <;> rw [decode_eq_ok_iff]
  · refine Iff.trans ?_ (and_formatMask_eq_iff w (i := .init .e128) rfl rfl rfl true true true).symm
    simp [opcodeOf, operandA, operandB, Instr.wellFormed, fieldB_eq_zero_iff]
  · refine Iff.trans ?_ (and_formatMask_eq_iff w (i := .add .e128 0 0) rfl rfl rfl false false false).symm
    simp [opcodeOf, operandA, operandB, Instr.wellFormed]
  · refine Iff.trans ?_ (and_formatMask_eq_iff w (i := .addi .e128 0) rfl rfl rfl true true false).symm
    simp [opcodeOf, operandA, operandB, Instr.wellFormed, fieldB_eq_zeroExtend_iff]
  · refine Iff.trans ?_ (and_formatMask_eq_iff w (i := .fin .e128) rfl rfl rfl true true true).symm
    simp [opcodeOf, operandA, operandB, Instr.wellFormed, fieldB_eq_zero_iff]
  · refine Iff.trans ?_ (and_formatMask_eq_iff w (i := .getb .e128 0) rfl rfl rfl false true true).symm
    simp [opcodeOf, operandA, operandB, Instr.wellFormed, fieldB_eq_zero_iff]
  · refine Iff.trans ?_ (and_formatMask_eq_iff w (i := .geth .e128 0) rfl rfl rfl false true true).symm
    simp [opcodeOf, operandA, operandB, Instr.wellFormed, fieldB_eq_zero_iff]
  · refine Iff.trans ?_ (and_congr_left'
      (and_formatMask_eq_iff w (i := .rdsr .e128 0) rfl rfl rfl true true false)).symm
    simp [opcodeOf, operandA, operandB, Instr.wellFormed, fieldB_eq_zeroExtend_iff, and_assoc]

/-! ### Illegal words (R52, R139) -/

/-- The legal selectors of the engine a word names (R19, R50), as numbers. -/
theorem legalSel_engineOf_iff (w : CmdWord) (sel : BitVec 8) : legalSel (engineOf w) sel = true ↔
    sel.toNat = 0x00 ∨ sel.toNat = 0x01 ∨ (fieldE w = 0 ∧ 0x10 ≤ sel.toNat ∧ sel.toNat ≤ 0x13) ∨
      (fieldE w = 1 ∧ 0x10 ≤ sel.toNat ∧ sel.toNat ≤ 0x17) := by
  rcases BitVec.eq_zero_or_eq_one (fieldE w) with hE | hE <;>
    simp [engineOf, hE, legalSel, isStateWordSel, selStatus, selLen, selH0, Engine.nw, ← BitVec.toNat_inj] <;> omega

/-- The legal words, opcode by opcode (R50). -/
theorem exists_decode_eq_ok_iff (w : CmdWord) : (∃ i, decode w = .ok i) ↔ fieldZ w = 0 ∧
    (((fieldOP w = 0x01 ∨ fieldOP w = 0x04) ∧ fieldA w = 0 ∧ fieldB w = 0) ∨
      fieldOP w = 0x02 ∨
      (fieldOP w = 0x03 ∧ fieldA w = 0 ∧ fieldBhi w = 0) ∨
      ((fieldOP w = 0x05 ∨ fieldOP w = 0x06) ∧ fieldB w = 0) ∨
      (fieldOP w = 0x07 ∧ fieldA w = 0 ∧ fieldBhi w = 0 ∧ legalSel (engineOf w) (fieldBlo w) = true)) := by
  have hB (b) := fieldB_eq_zeroExtend_iff w b
  constructor
  · rintro ⟨i, h⟩
    rw [decode_eq_ok_iff] at h
    obtain ⟨hZ, hOP, hE, hA, hB', hwf⟩ := h
    cases i with
    | addi e b | rdsr e b =>
      obtain ⟨hhi, rfl⟩ := (hB b).1 hB'
      simp_all [opcodeOf, operandA, Instr.wellFormed]
    | _ => simp_all [opcodeOf, operandA, operandB]
  · rintro ⟨hZ, ⟨hOP | hOP, hA, hB0⟩ | hOP | ⟨hOP, hA, hhi⟩ | ⟨hOP | hOP, hB0⟩ | ⟨hOP, hA, hhi, hsel⟩⟩
    · exact ⟨.init (engineOf w), (decode_eq_ok_iff _ _).2 ⟨hZ, hOP, rfl, hA, hB0, rfl⟩⟩
    · exact ⟨.fin (engineOf w), (decode_eq_ok_iff _ _).2 ⟨hZ, hOP, rfl, hA, hB0, rfl⟩⟩
    · exact ⟨.add (engineOf w) (fieldA w) (fieldB w), (decode_eq_ok_iff _ _).2 ⟨hZ, hOP, rfl, rfl, rfl, rfl⟩⟩
    · exact ⟨.addi (engineOf w) (fieldBlo w), (decode_eq_ok_iff _ _).2 ⟨hZ, hOP, rfl, hA, (hB _).2 ⟨hhi, rfl⟩, rfl⟩⟩
    · exact ⟨.getb (engineOf w) (fieldA w), (decode_eq_ok_iff _ _).2 ⟨hZ, hOP, rfl, rfl, hB0, rfl⟩⟩
    · exact ⟨.geth (engineOf w) (fieldA w), (decode_eq_ok_iff _ _).2 ⟨hZ, hOP, rfl, rfl, hB0, rfl⟩⟩
    · exact ⟨.rdsr (engineOf w) (fieldBlo w),
        (decode_eq_ok_iff _ _).2 ⟨hZ, hOP, rfl, hA, (hB _).2 ⟨hhi, rfl⟩, hsel⟩⟩

/-- The seven opcodes and the others (R47). -/
theorem opcode_cases (op : BitVec 8) : (op = 0x00 ∨ 0x08 ≤ op.toNat) ∨ op = 0x01 ∨ op = 0x02 ∨ op = 0x03 ∨
    op = 0x04 ∨ op = 0x05 ∨ op = 0x06 ∨ op = 0x07 := by
  bv_omega

/-- A word that decodes runs its command (R60). -/
theorem execWord_of_decode {w : CmdWord} {i : Instr} (h : decode w = .ok i) (s : State) :
    execWord w s = exec i s := by
  rw [execWord, h]

/-- A word that does not decode answers `IllegalCommand` and changes nothing (R139). -/
theorem execWord_of_illegal {w : CmdWord} (h : ∀ i, decode w ≠ .ok i) (s : State) :
    execWord w s = .next (answered s 3 w) := by
  cases hd : decode w with
  | ok i => exact absurd hd (h i)
  | error r =>
    rw [execWord, hd]
    exact raise_answered (err := .illegalCommand) nofun _ w s

/-- Settles O5: the negation of `exists_decode_eq_ok_iff`, opcode by opcode. -/
theorem illegalExactlyWhen : Obligations.IllegalExactlyWhen := by
  refine ⟨fun w => ?_, fun w s h => execWord_of_illegal h s⟩
  rw [← not_exists, exists_decode_eq_ok_iff, ← legalSel_engineOf_iff]
  by_cases hZ : fieldZ w = 0
  · rcases opcode_cases (fieldOP w) with (h | h) | h | h | h | h | h | h | h
    · simp [hZ, h]
    · have hne (k : BitVec 8) (hk : k.toNat < 8) : fieldOP w ≠ k := by rintro rfl; omega
      simp [hZ, h, hne]
    all_goals simp [hZ, h, imp_iff_not_or]
  · exact ⟨fun _ => .inl hZ, fun _ h => hZ h.1⟩

/-! ### The response of a command (R46) -/

/-- A check of the body fails with one of the seven codes (R135). -/
theorem bodyCode_le (i : Instr) (s : State) : (bodyCode i s).toNat ≤ 6 := by
  cases i with
  | init | fin | rdsr => exact Nat.zero_le 6
  | add | addi | getb | geth =>
    simp only [bodyCode]
    split_ifs <;> decide

/-- The value of a response `OK` (R46). -/
theorem effect_value {i : Instr} {s : State} {x : EngineState i.engine.nw} {m : List Host.Cell} {v : BitVec 64}
    (h : Effect i s x m v) : (∀ e sel, i = .rdsr e sel → statusRegister e sel (s.engine e) = some v) ∧
      ((∀ e sel, i ≠ .rdsr e sel) → v = 0) := by
  cases i with
  | rdsr e sel =>
    obtain ⟨-, -, hv⟩ := h
    refine ⟨?_, fun hne => absurd rfl (hne e sel)⟩
    rintro _ _ ⟨⟩
    exact hv
  | _ =>
    obtain ⟨-, -, hv⟩ := h
    exact ⟨nofun, fun _ => hv⟩

/-- Every response of a command word (R46): an error with the word as its value, or `OK` with the value of the
command's effect. -/
theorem execWord_outputs {w : CmdWord} {s t : State} (ht : execWord w s = .next t) :
    (∃ c : BitVec 4, t.outputs = .response ⟨c, w⟩ :: s.outputs ∧ c.toNat ≤ 6 ∧ c ≠ 0) ∨
    (∃ i x m v, decode w = .ok i ∧ Effect i s x m v ∧ t.outputs = .response ⟨0, v⟩ :: s.outputs) := by
  by_cases hill : ∀ i, decode w ≠ .ok i
  · cases ht.symm.trans (execWord_of_illegal hill s)
    exact .inl ⟨3, rfl, by decide, by decide⟩
  · obtain ⟨i, hi⟩ := not_forall_not.1 hill
    rw [execWord_of_decode hi] at ht
    obtain rfl := encode_eq_of_decode hi
    cases exec_cases i s with
    | faulted _ _ he =>
      cases ht.symm.trans he
      exact .inl ⟨6, rfl, by decide, by decide⟩
    | badOffset _ _ _ he =>
      cases ht.symm.trans he
      exact .inl ⟨2, by simp, by decide, by decide⟩
    | illegal _ _ he =>
      cases ht.symm.trans he
      exact .inl ⟨3, rfl, by decide, by decide⟩
    | bodyError _ _ _ hc he =>
      cases ht.symm.trans he
      exact .inl ⟨_, rfl, bodyCode_le i s, hc⟩
    | success _ _ _ x m v heff he =>
      cases ht.symm.trans he
      exact .inr ⟨i, x, m, v, hi, heff, succeeded_outputs ..⟩
    | unwritten _ _ _ _ _ _ _ _ he => cases ht.symm.trans he

/-- Settles O19: an error has its word, a success the value of its effect. -/
theorem oneResponsePerCommand : Obligations.OneResponsePerCommand := by
  intro w s t ht
  rcases execWord_outputs ht with ⟨c, hout, hle, hne⟩ | ⟨i, x, m, v, hi, heff, hout⟩
  · exact ⟨⟨c, w⟩, hout, hle, fun _ => rfl, fun h => absurd h hne⟩
  · exact ⟨⟨0, v⟩, hout, Nat.zero_le 6, fun h => absurd rfl h, fun _ => ⟨i, hi, effect_value heff⟩⟩

end Sys2Proof
end

section
/-! The bytes of a word as numbers, and with them the length field and the tail of 41_padding_engine.md (R72, R73). -/

namespace Sys2Proof.Machine

/-! ### The length field (R73) -/

/-- Byte `i` of a word, counted from the least significant one. -/
theorem byteOf_toNat {w : Nat} (v : BitVec w) (i : Nat) : (byteOf v i).toNat = v.toNat / 256 ^ i % 256 := by
  rw [byteOf, toNat_field, Nat.pow_mul, show 2 ^ 8 = 256 from rfl]

theorem lenField_e128_getD (L : BitVec 64) {k : Nat} (hk : k < 8) : (lenField .e128 L).getD k 0 = byteOf L k := by
  have hmap : lenField .e128 L = (List.range 8).map (byteOf L) := rfl
  simp [hmap, hk]

/-- The two orders of the length field are each other's reverse (C1). -/
theorem lenField_e256_eq_reverse (L : BitVec 64) : lenField .e256 L = (lenField .e128 L).reverse := rfl

theorem lenField_e256_getD (L : BitVec 64) {k : Nat} (hk : k < 8) :
    (lenField .e256 L).getD k 0 = byteOf L (7 - k) := by
  rw [lenField_e256_eq_reverse, List.getD_reverse _ (by simpa using hk), lenField_length,
    lenField_e128_getD L (by omega)]

/-- Settles O38: each order lists the bytes of `L`, and `byteOf_toNat` gives a byte as a number. -/
theorem lengthFieldByteOrder : Obligations.LengthFieldByteOrder := by
  refine fun L => ⟨lenField_length .e256 L, lenField_length .e128 L, fun k hk => ⟨?_, ?_⟩⟩
  · rw [lenField_e256_getD L hk, byteOf_toNat]
  · rw [lenField_e128_getD L hk, byteOf_toNat]

/-! ### The parts of the tail (R72) -/

/-- The tail has room for `0x80` and the length field, and at most 63 zero bytes between them. -/
theorem tailLength_bounds {off : BitVec 7} (h : off.toNat ≤ 63) : 9 ≤ tailLength off ∧ tailLength off ≤ 72 := by
  have := tailLength_cases h
  omega

/-- The `T − 9` bytes between `0x80` and the length field are zero. -/
theorem tail_getElem?_zeros (e : Engine) (off : BitVec 7) (L : BitVec 64) {k : Nat} (h1 : 1 ≤ k)
    (hk : k < tailLength off - 8) : (tail e off L)[k]? = some 0 := by
  obtain ⟨j, rfl⟩ := Nat.exists_eq_add_of_le' h1
  have hj : j < tailLength off - 9 := by omega
  simp [tail, List.getElem?_append_left, hj]

/-- The last eight bytes of the tail are the length field. -/
theorem tail_drop_lenField (e : Engine) {off : BitVec 7} (h : off.toNat ≤ 63) (L : BitVec 64) :
    (tail e off L).drop (tailLength off - 8) = lenField e L := by
  have := tailLength_bounds h
  apply List.drop_left'
  simp
  omega

/-- Settles O37: the parts of the tail are those of its definition, with `tailLength_bounds` for the pad proper. -/
theorem tailLayout : Obligations.TailLayout := by
  intro e off L h
  have hT := tailLength_bounds h
  exact ⟨tailLength off, rfl, tail_length e h L, rfl, fun k => tail_getElem?_zeros e off L,
    tail_drop_lenField e h L, by omega, by omega⟩

end Sys2Proof.Machine
end

section
/-! What a command that answers leaves of the counter, and with it R84 of 42_incremental_buffer.md. -/

namespace Sys2Proof.Machine

/-- A command that answers either fails, with a nonzero code and the counter of its engine as it was, or succeeds with
its effect (R84, R137). -/
theorem exec_next_cases {i : Instr} {s t : State} (ht : exec i s = .next t) :
    (∃ c : BitVec 4, c ≠ 0 ∧ t.outputs = .response ⟨c, encode i⟩ :: s.outputs ∧
      (t.engine i.engine).len = (s.engine i.engine).len) ∨
    (bodyCode i s = 0 ∧ ∃ x m v, Effect i s x m v ∧ t = succeeded s i.engine x m v) := by
  cases exec_cases i s with
  | faulted _ _ he =>
    cases ht.symm.trans he
    exact .inl ⟨6, by decide, rfl, by simp⟩
  | badOffset _ _ _ he =>
    cases ht.symm.trans he
    exact .inl ⟨2, by decide, by simp, by simp⟩
  | illegal _ _ he =>
    cases ht.symm.trans he
    exact .inl ⟨3, by decide, rfl, by simp⟩
  | bodyError _ _ _ hc he =>
    cases ht.symm.trans he
    exact .inl ⟨_, hc, rfl, by simp⟩
  | success _ _ hc x m v heff he =>
    cases ht.symm.trans he
    exact .inr ⟨hc, x, m, v, heff, rfl⟩
  | unwritten _ _ _ _ _ _ _ _ he => cases ht.symm.trans he

/-- Where the effect of a command raises the counter by `n`, the command raises it by `n` with the code `OK` and by
nothing with any other. -/
theorem len_toNat_of_exec {i : Instr} {s t : State} {r : Response} {n : Nat}
    (heffect : ∀ x m v, bodyCode i s = 0 → Effect i s x m v → x.len.toNat = (s.engine i.engine).len.toNat + n)
    (ht : exec i s = .next t) (hr : t.outputs = .response r :: s.outputs) :
    (t.engine i.engine).len.toNat = (s.engine i.engine).len.toNat + (if r.code = 0 then n else 0) := by
  rcases exec_next_cases ht with ⟨c, hc, hout, hlen⟩ | ⟨hc, x, m, v, heff, rfl⟩
  · cases hout.symm.trans hr
    rw [hlen, if_neg hc, Nat.add_zero]
  · cases (succeeded_outputs ..).symm.trans hr
    rw [succeeded_engine, if_pos rfl, heffect x m v hc heff]

/-- The checks of the body of `ADD` (R82, R147 items 4 to 6). -/
theorem bodyCode_add_eq_zero_iff {e : Engine} {off len : BitVec 24} {s : State} :
    bodyCode (.add e off len) s = 0 ↔ (s.engine e).closed = false ∧ off.toNat + len.toNat ≤ s.memBytes ∧
      (s.engine e).len.toNat + 8 * len.toNat ≤ 2 ^ 64 - 1 := by
  rw [← Nat.not_lt, ← Nat.not_lt, ← Bool.not_eq_true]
  simp only [bodyCode]
  split_ifs with h1 h2 h3
  · exact ⟨nofun, fun ⟨hn, _⟩ => absurd h1 hn⟩
  · exact ⟨nofun, fun ⟨_, hn, _⟩ => absurd h2 hn⟩
  · exact ⟨nofun, fun ⟨_, _, hn⟩ => absurd h3 hn⟩
  · exact ⟨fun _ => ⟨h1, h2, h3⟩, fun _ => rfl⟩

/-- The checks of the body of `ADDI` (R83). -/
theorem bodyCode_addi_eq_zero_iff {e : Engine} {b : Byte} {s : State} :
    bodyCode (.addi e b) s = 0 ↔ (s.engine e).closed = false ∧ (s.engine e).len.toNat + 8 ≤ 2 ^ 64 - 1 := by
  rw [← Nat.not_lt, ← Bool.not_eq_true]
  simp only [bodyCode]
  split_ifs with h1 h2
  · exact ⟨nofun, fun ⟨hn, _⟩ => absurd h1 hn⟩
  · exact ⟨nofun, fun ⟨_, hn⟩ => absurd h2 hn⟩
  · exact ⟨fun _ => ⟨h1, h2⟩, fun _ => rfl⟩

/-- A finalizing command leaves the engine as `Finalize` does (R124 to R126). -/
theorem Effect.eq_finalized {i : Instr} {s : State} {dst : BitVec 24} {x : EngineState i.engine.nw}
    {m : List Host.Cell} {v : BitVec 64} (h : Effect i s x m v)
    (hi : i = .fin i.engine ∨ i = .getb i.engine dst ∨ i = .geth i.engine dst) :
    x = finalized i.engine (s.engine i.engine) := by
  cases i with
  | fin | getb | geth => exact h.1
  | init | add | addi | rdsr => simp at hi

/-- Settles O34: `ADD` and `ADDI` by `submit_len_toNat`, since their checks shut out an overflow; `Finalize` keeps the
counter. -/
theorem counterCountsInput : Obligations.CounterCountsInput := by
  refine ⟨fun s t e off len r => ?_, fun s t e b r => ?_, fun s t e i dst hi ht => ?_⟩
  · refine len_toNat_of_exec (i := .add e off len) fun x m v hc heff => ?_
    obtain ⟨-, -, hov⟩ := bodyCode_add_eq_zero_iff.1 hc
    obtain ⟨⟨bs, hbs, rfl⟩, -, -⟩ := heff
    have hlen : bs.length = len.toNat := (Memory.readBytes_ok hbs).1
    rw [← hlen]
    exact submit_len_toNat (hlen ▸ hov)
  · refine len_toNat_of_exec (i := .addi e b) fun x m v hc heff => ?_
    obtain ⟨-, hov⟩ := bodyCode_addi_eq_zero_iff.1 hc
    obtain ⟨rfl, -, -⟩ := heff
    exact submit_len_toNat (v := [b]) hov
  · have he : i.engine = e := by rcases hi with rfl | rfl | rfl <;> rfl
    subst he
    rcases exec_next_cases ht with ⟨-, -, -, hlen⟩ | ⟨-, x, m, v, heff, rfl⟩
    · exact hlen
    · rw [succeeded_engine, heff.eq_finalized hi, finalized_len]

end Sys2Proof.Machine
end

section
/-! The bytes and the bits of the words of 00_scope.md R8, and with them the block schedulers of
43_message_scheduler.md (R90 to R94) and the large sigma functions (R113). -/

namespace Sys2Proof.Machine

/-! ### Words from bytes (R90, R92) -/

theorem le32_toNat (b0 b1 b2 b3 : Byte) : (le32 b0 b1 b2 b3).toNat =
    b0.toNat + 2 ^ 8 * b1.toNat + 2 ^ 16 * b2.toNat + 2 ^ 24 * b3.toNat := by
  rw [le32, toNat_append_eq, toNat_append_eq, toNat_append_eq]
  ring

theorem be32_toNat (b0 b1 b2 b3 : Byte) : (be32 b0 b1 b2 b3).toNat =
    2 ^ 24 * b0.toNat + 2 ^ 16 * b1.toNat + 2 ^ 8 * b2.toNat + b3.toNat := by
  rw [be32, toNat_append_eq, toNat_append_eq, toNat_append_eq]
  ring

theorem getD_toList {α : Type} {n k : Nat} (v : Vector α n) (d : α) (hk : k < n) : v.toList.getD k d = v[k] := by
  rw [List.getD_eq_getElem _ _ (by simpa using hk), Vector.getElem_toList]

/-- Settles O41: each word is `LE32` of its four bytes, which `le32_toNat` gives as a number. -/
theorem decode128LittleEndian : Obligations.Decode128LittleEndian := by
  intro blk j
  have hj := j.isLt
  simp (disch := omega) only [getD_toList]
  rw [← le32_toNat, decode128, Fin.getElem_fin, Vector.getElem_ofFn]

/-! ### The word order of the 128-bit engine (R91) -/

theorem wIndex128_val (i : Fin 64) : (wIndex128 i).val =
    if i.val ≤ 15 then i.val else if i.val ≤ 31 then (5 * i.val + 1) % 16
    else if i.val ≤ 47 then (3 * i.val + 5) % 16 else 7 * i.val % 16 := by
  unfold wIndex128
  split_ifs with h
  · exact Nat.mod_eq_of_lt (Nat.lt_succ_of_le h)
  · rfl
  · rfl
  · rfl

/-- Within a group the index is an affine function of the round, with an odd multiplier. -/
theorem wIndex128_affine (g : Fin 4) : ∃ a b : Nat, Nat.Coprime 16 a ∧
    ∀ i : Fin 64, i.val / 16 = g.val → (wIndex128 i).val = (a * i.val + b) % 16 := by
  simp only [wIndex128_val]
  match g with
  | 0 => exact ⟨1, 0, by decide, fun i hi => by split_ifs <;> omega⟩
  | 1 => exact ⟨5, 1, by decide, fun i hi => by split_ifs <;> omega⟩
  | 2 => exact ⟨3, 5, by decide, fun i hi => by split_ifs <;> omega⟩
  | 3 => exact ⟨7, 0, by decide, fun i hi => by split_ifs <;> omega⟩

/-- No two rounds of a group add the same word: the multiplier of the group is invertible modulo 16. -/
theorem eq_of_wIndex128_eq {i j : Fin 64} (hg : i.val / 16 = j.val / 16) (h : wIndex128 i = wIndex128 j) : i = j := by
  obtain ⟨a, b, hco, haff⟩ := wIndex128_affine ⟨i.val / 16, by omega⟩
  have hab : a * i.val + b ≡ a * j.val + b [MOD 16] :=
    (haff i rfl).symm.trans ((congrArg Fin.val h).trans (haff j hg.symm))
  have hmod : i.val % 16 = j.val % 16 := (hab.add_right_cancel' b).cancel_left_of_coprime hco
  omega

/-- Some round of each group adds a given word: the sixteen rounds of a group add sixteen different words. -/
theorem exists_wIndex128_eq (g : Fin 4) (k : Fin 16) : ∃ i : Fin 64, i.val / 16 = g.val ∧ wIndex128 i = k := by
  have hinj : Function.Injective fun j : Fin 16 => wIndex128 ⟨16 * g.val + j.val, by omega⟩ := by
    intro j j' h
    have := congrArg Fin.val (eq_of_wIndex128_eq (by dsimp only; omega) h)
    ext
    simpa using this
  obtain ⟨j, hj⟩ := Finite.surjective_of_injective hinj k
  exact ⟨_, by dsimp only; omega, hj⟩

/-- Settles O42: `wIndex128_val`, and one round of each group for each word. -/
theorem wordOrder128 : Obligations.WordOrder128 := by
  refine ⟨wIndex128_val, fun g k => ?_⟩
  obtain ⟨i, hi, hk⟩ := exists_wIndex128_eq g k
  exact ⟨i, ⟨hi, hk⟩, fun j ⟨hj, hjk⟩ => eq_of_wIndex128_eq (hj.trans hi.symm) (hjk.trans hk.symm)⟩

/-! ### The schedule of the 256-bit engine (R92, R93) -/

theorem firstWords256_toNat (blk : Block) {t : Nat} (ht : t < 16) : (firstWords256 blk)[t].toNat =
    2 ^ 24 * blk[4 * t].toNat + 2 ^ 16 * blk[4 * t + 1].toNat + 2 ^ 8 * blk[4 * t + 2].toNat +
      blk[4 * t + 3].toNat := by
  rw [firstWords256, Vector.getElem_ofFn, be32_toNat]

theorem expandAt_getElem_self (w : Vector Word 64) (t : Fin 64) : (expandAt w t)[t.val] =
    scheduleWord w[t.val - 2] w[t.val - 7] w[t.val - 15] w[t.val - 16] :=
  Vector.getElem_set_self _

theorem expandAt_getElem_of_lt (w : Vector Word 64) (t : Fin 64) {k : Nat} (hk : k < t.val) :
    (expandAt w t)[k] = w[k] :=
  Vector.getElem_set_ne _ _ hk.ne'

/-- A run of steps leaves every word before the words it computes. -/
theorem foldl_expandAt_getElem_of_lt {l : List (Fin 64)} (w : Vector Word 64) {k : Nat} (h64 : k < 64)
    (hk : ∀ t ∈ l, k < t.val) : (l.foldl expandAt w)[k] = w[k] := by
  induction l generalizing w with
  | nil => rfl
  | cons t l ih =>
    obtain ⟨ht, hl⟩ := List.forall_mem_cons.1 hk
    exact (ih (expandAt w t) hl).trans (expandAt_getElem_of_lt w t ht)

/-- In a run of ascending steps, every word computed meets the recurrence in the words the run leaves: a step reads
only words before its own, which no later step sets (R93). -/
theorem foldl_expandAt_getElem_of_mem {l : List (Fin 64)} (w : Vector Word 64) (hasc : l.Pairwise (· < ·))
    {t : Fin 64} (ht : t ∈ l) (hpos : 16 ≤ t.val) : (l.foldl expandAt w)[t.val] =
      scheduleWord (l.foldl expandAt w)[t.val - 2] (l.foldl expandAt w)[t.val - 7]
        (l.foldl expandAt w)[t.val - 15] (l.foldl expandAt w)[t.val - 16] := by
  induction l generalizing w with
  | nil => cases ht
  | cons t₀ l ih =>
    obtain ⟨hlater, hasc⟩ := List.pairwise_cons.1 hasc
    rcases List.mem_cons.1 ht with rfl | ht
    · have hread (k : Nat) (hk : k < t.val) : (l.foldl expandAt (expandAt w t))[k] = w[k] :=
        (foldl_expandAt_getElem_of_lt _ _ fun s hs => hk.trans (hlater s hs)).trans (expandAt_getElem_of_lt w t hk)
      rw [List.foldl_cons, hread (t.val - 2) (by omega), hread (t.val - 7) (by omega), hread (t.val - 15) (by omega),
        hread (t.val - 16) (by omega), foldl_expandAt_getElem_of_lt _ _ hlater, expandAt_getElem_self]
    · exact ih (expandAt w t₀) hasc ht

/-- The steps of the expansion: 16 to 63. -/
theorem mem_drop_finRange_iff : ∀ t : Fin 64, t ∈ (List.finRange 64).drop 16 ↔ 16 ≤ t.val := by decide

/-- R92: the first sixteen words are those of the block. -/
theorem schedule256_getElem_of_lt (blk : Block) {t : Nat} (ht : t < 16) :
    (schedule256 blk)[t] = (firstWords256 blk)[t] := by
  rw [schedule256, foldl_expandAt_getElem_of_lt _ _ fun s hs => ht.trans_le ((mem_drop_finRange_iff s).1 hs),
    Vector.getElem_append_left]

/-- R93's recurrence. -/
theorem schedule256_getElem_of_le (blk : Block) {t : Nat} (h16 : 16 ≤ t) (h64 : t < 64) : (schedule256 blk)[t] =
    scheduleWord (schedule256 blk)[t - 2] (schedule256 blk)[t - 7] (schedule256 blk)[t - 15]
      (schedule256 blk)[t - 16] :=
  foldl_expandAt_getElem_of_mem (t := ⟨t, h64⟩) _ (List.pairwise_lt_finRange 64).drop
    ((mem_drop_finRange_iff _).2 h16) h16

/-- Settles O43: the first words by `firstWords256_toNat`, the later ones by the invariant of the ascending run. -/
theorem schedule256Recurrence : Obligations.Schedule256Recurrence := by
  refine fun blk t => ⟨fun ht => ?_, fun h16 h64 => ?_⟩
  · simp (disch := omega) only [getD_toList]
    rw [schedule256_getElem_of_lt blk ht, firstWords256_toNat blk ht]
  · simp (disch := omega) only [getD_toList]
    rw [schedule256_getElem_of_le blk h16 h64, scheduleWord]

/-! ### The sigma functions (R94, R113) -/

/-- Bit `i` of a right rotation (R8). -/
theorem rotr32_getLsbD (x : Word) {n i : Nat} (h0 : 0 < n) (hn : n < 32) (hi : i < 32) :
    (rotr32 x n).getLsbD i = x.getLsbD ((i + n) % 32) := by
  rw [rotr32, rotl32, BitVec.getLsbD_or, BitVec.getLsbD_shiftLeft, BitVec.getLsbD_ushiftRight,
    Nat.sub_sub_self hn.le]
  rcases Nat.lt_or_ge (i + n) 32 with h | h
  · rw [Nat.mod_eq_of_lt h, Nat.add_comm n i]
    simp [show i < 32 - n by omega]
  · have hlow : x.getLsbD (n + i) = false := BitVec.getLsbD_of_ge x _ (by omega)
    rw [hlow, show (i + n) % 32 = i - (32 - n) by omega]
    simp [hi, show ¬ i < 32 - n by omega]

theorem shr32_getLsbD (x : Word) (n i : Nat) : (shr32 x n).getLsbD i = x.getLsbD (i + n) := by
  rw [shr32, BitVec.getLsbD_ushiftRight, Nat.add_comm]

/-- Settles O44: a sigma function is an exclusive or of rotations and shifts, each read bit by bit. -/
theorem sigmaFunctionsBitwise : Obligations.SigmaFunctionsBitwise := by
  intro x i hi
  have hrot {n : Nat} (h0 : 0 < n) (hn : n < 32) := rotr32_getLsbD x h0 hn hi
  simp [smallSigma0, smallSigma1, bigSigma0, bigSigma1, hrot, shr32_getLsbD]

end Sys2Proof.Machine
end

section
/-! The 128-bit compression (44_hash_compressor_128bit.md): its auxiliary functions bit by bit (R103), and its loop
(R104) as a sequence of intermediate states. -/

namespace Sys2Proof.Machine

/-! ### The auxiliary functions (R103) -/

theorem auxF_getLsbD (x y z : Word) {i : Nat} (hi : i < 32) :
    (auxF x y z).getLsbD i = if x.getLsbD i then y.getLsbD i else z.getLsbD i := by
  simp only [auxF, BitVec.getLsbD_or, BitVec.getLsbD_and, BitVec.getLsbD_not, hi, decide_true, Bool.true_and]
  cases x.getLsbD i <;> simp

/-- `G` is `F` with its last argument as the selector. -/
theorem auxG_eq_auxF (x y z : Word) : auxG x y z = auxF z x y := by
  rw [auxG, auxF, BitVec.and_comm x, BitVec.and_comm y]

theorem auxH_getLsbD (x y z : Word) (i : Nat) :
    (auxH x y z).getLsbD i = ((x.getLsbD i ^^ y.getLsbD i) ^^ z.getLsbD i) := by
  rw [auxH, BitVec.getLsbD_xor, BitVec.getLsbD_xor]

theorem auxI_getLsbD (x y z : Word) {i : Nat} (hi : i < 32) :
    (auxI x y z).getLsbD i = (y.getLsbD i ^^ (x.getLsbD i || !z.getLsbD i)) := by
  simp [auxI, hi]

theorem aux128_of_lt_16 {r : Fin 64} (h : r.val < 16) (x y z : Word) : aux128 r x y z = auxF x y z :=
  if_pos (by omega)

theorem aux128_of_lt_32 {r : Fin 64} (h16 : 16 ≤ r.val) (h32 : r.val < 32) (x y z : Word) :
    aux128 r x y z = auxG x y z := by
  rw [aux128, if_neg (by omega), if_pos (by omega)]

theorem aux128_of_lt_48 {r : Fin 64} (h32 : 32 ≤ r.val) (h48 : r.val < 48) (x y z : Word) :
    aux128 r x y z = auxH x y z := by
  rw [aux128, if_neg (by omega), if_neg (by omega), if_pos (by omega)]

theorem aux128_of_48_le {r : Fin 64} (h : 48 ≤ r.val) (x y z : Word) : aux128 r x y z = auxI x y z := by
  rw [aux128, if_neg (by omega), if_neg (by omega), if_neg (by omega)]

/-- Settles O45: each round group uses one of the four functions, and each of them is read bit by bit. -/
theorem auxFunctionsBitwise : Obligations.AuxFunctionsBitwise := by
  intro r x y z i hi
  refine ⟨fun h => ?_, fun h16 h32 => ?_, fun h32 h48 => ?_, fun h => ?_⟩
  · rw [aux128_of_lt_16 h, auxF_getLsbD x y z hi]
  · rw [aux128_of_lt_32 h16 h32, auxG_eq_auxF, auxF_getLsbD z x y hi]
  · rw [aux128_of_lt_48 h32 h48, auxH_getLsbD]
  · rw [aux128_of_48_le h, auxI_getLsbD x y z hi]

/-! ### The rounds (R102, R104, R105) -/

/-- An ascending loop over all of `Fin n` passes through a sequence of states, one step apart: state `k` is what the
first `k` rounds make. -/
theorem exists_states_of_foldl_finRange {α : Type} {n : Nat} (f : α → Fin n → α) (a : α) :
    ∃ v : Nat → α, v 0 = a ∧ (∀ i : Fin n, v (i.val + 1) = f (v i.val) i) ∧ (List.finRange n).foldl f a = v n := by
  refine ⟨fun k => ((List.finRange n).take k).foldl f a, rfl, fun i => ?_, ?_⟩
  · have hi : i.val < (List.finRange n).length := by simp
    have htake : (List.finRange n).take (i.val + 1) = (List.finRange n).take i.val ++ [i] := by
      rw [List.take_succ_eq_append_getElem hi, List.getElem_finRange]
      rfl
    simp only [htake, List.foldl_append, List.foldl_cons, List.foldl_nil]
  · exact congrArg (List.foldl f a) (List.take_of_length_le List.length_finRange.le).symm

/-- R102: the rotate amount of a round, read from the four rows as lists. -/
theorem s128_eq_getD : ∀ i : Fin 64, s128 i =
    (([[7, 12, 17, 22], [5, 9, 14, 20], [4, 11, 16, 23], [6, 10, 15, 21]] : List (List Nat)).getD (i.val / 16) []).getD
      (i.val % 4) 0 := by decide

theorem k128_toList : k128.toList =
    k128Group0.toList ++ k128Group1.toList ++ k128Group2.toList ++ k128Group3.toList := by
  rw [k128, Vector.toList_append, Vector.toList_append, Vector.toList_append]

/-- Settles O46: the tables are those of R101 and R102; the loop of `compress128` gives the states, `round128` each
step from one to the next. -/
theorem compress128Rounds : Obligations.Compress128Rounds := by
  refine ⟨k128_toList, s128_eq_getD, fun S blk => ?_⟩
  obtain ⟨v, h0, hstep, hlast⟩ :=
    exists_states_of_foldl_finRange (round128 (decode128 blk)) ⟨S[0], S[1], S[2], S[3]⟩
  refine ⟨v, h0, fun i => ?_, ?_⟩
  · rw [hstep i]
    exact ⟨rfl, rfl, rfl, rfl⟩
  · rw [compress128, rounds128, hlast, addState128]

end Sys2Proof.Machine
end

section
/-! The 256-bit compression (45_hash_compressor_256bit.md): its choice and majority functions bit by bit (R114), its
round constants as the cube roots of the first 64 primes (R112), and its rounds (R115, R116). -/

namespace Sys2Proof.Machine

/-! ### Choice and majority (R114) -/

theorem ch_getLsbD (x y z : Word) {i : Nat} (hi : i < 32) :
    (ch x y z).getLsbD i = if x.getLsbD i then y.getLsbD i else z.getLsbD i := by
  simp only [ch, BitVec.getLsbD_xor, BitVec.getLsbD_and, BitVec.getLsbD_not, hi, decide_true, Bool.true_and]
  cases x.getLsbD i <;> simp

theorem maj_getLsbD (x y z : Word) (i : Nat) : (maj x y z).getLsbD i =
    ((x.getLsbD i && y.getLsbD i ^^ x.getLsbD i && z.getLsbD i) ^^ (y.getLsbD i && z.getLsbD i)) := by
  simp only [maj, BitVec.getLsbD_xor, BitVec.getLsbD_and]

/-- The exclusive or of the three products of two bits is the majority of the three bits. -/
theorem xor_and_eq_true_iff_two_le : ∀ a b c : Bool,
    ((a && b ^^ a && c) ^^ (b && c)) = true ↔ 2 ≤ a.toNat + b.toNat + c.toNat := by decide

/-- Settles O47: `ch` and `maj` are read bit by bit. -/
theorem chMajBitwise : Obligations.ChMajBitwise := by
  intro x y z i hi
  refine ⟨ch_getLsbD x y z hi, ?_⟩
  rw [maj_getLsbD, xor_and_eq_true_iff_two_le]

/-! ### The first 64 primes (R112) -/

/-- The first 64 primes, whose cube roots R112 takes. -/
def firstPrimes : Vector Nat 64 :=
  #v[2, 3, 5, 7, 11, 13, 17, 19, 23, 29, 31, 37, 41, 43, 47, 53,
    59, 61, 67, 71, 73, 79, 83, 89, 97, 101, 103, 107, 109, 113, 127, 131,
    137, 139, 149, 151, 157, 163, 167, 173, 179, 181, 191, 193, 197, 199, 211, 223,
    227, 229, 233, 239, 241, 251, 257, 263, 269, 271, 277, 281, 283, 293, 307, 311]

/-- In the ascending list of the numbers below `N` that have a property, entry `i` has `i` of them before it. -/
theorem count_getElem_of_filter_range_eq {p : Nat → Prop} [DecidablePred p] {N : Nat} {l : List Nat}
    (hl : (List.range N).filter p = l) {i : Nat} (hi : i < l.length) : Nat.count p l[i] = i := by
  subst hl
  induction N with
  | zero => cases hi
  | succ N ih =>
    simp only [List.range_succ, List.filter_append] at hi ⊢
    rcases Nat.lt_or_ge i ((List.range N).filter p).length with h | h
    · rw [List.getElem_append_left h, ih h]
    · by_cases hN : p N
      · have hlast : i < ((List.range N).filter p).length + 1 := by simpa [hN] using hi
        obtain rfl : i = ((List.range N).filter p).length := by omega
        simp [hN, Nat.count, List.countP_eq_length_filter]
      · exact absurd (by simpa [hN] using hi) h.not_gt

/-- Trial division by the numbers below 18 finds the primes below `18 ^ 2`. -/
theorem prime_iff_trialDivision {m : Nat} (hm : m < 18 * 18) :
    m.Prime ↔ 2 ≤ m ∧ ∀ d < 18, 2 ≤ d → d < m → ¬ d ∣ m := by
  constructor
  · exact fun h => ⟨h.two_le, fun d _ h2 hlt hd => hlt.ne ((Nat.dvd_prime_two_le h h2).1 hd)⟩
  · refine fun ⟨h2, h⟩ => Nat.prime_def_le_sqrt.2 ⟨h2, fun d hd hle => ?_⟩
    exact h d (hle.trans_lt (Nat.sqrt_lt.2 hm)) hd (hle.trans_lt (Nat.sqrt_lt_self h2))

/-- `firstPrimes` lists the primes in order, with none left out. -/
theorem filter_prime_range : (List.range 312).filter Nat.Prime = firstPrimes.toList := by
  have htrial : (List.range 312).filter Nat.Prime =
      (List.range 312).filter fun m => 2 ≤ m ∧ ∀ d < 18, 2 ≤ d → d < m → ¬ d ∣ m :=
    List.filter_congr fun m hm => decide_eq_decide.2
      (prime_iff_trialDivision ((List.mem_range.1 hm).trans (by decide)))
  rw [htrial]
  decide +kernel

theorem firstPrimes_prime (t : Fin 64) : firstPrimes[t].Prime := by
  have hmem : firstPrimes[t] ∈ (List.range 312).filter Nat.Prime := by
    rw [filter_prime_range, Vector.mem_toList_iff]
    exact Vector.getElem_mem t.isLt
  exact of_decide_eq_true (List.mem_filter.1 hmem).2

theorem count_firstPrimes (t : Fin 64) : Nat.count Nat.Prime firstPrimes[t] = t.val := by
  have ht : t.val < firstPrimes.toList.length := by rw [Vector.length_toList]; exact t.isLt
  have h := count_getElem_of_filter_range_eq filter_prime_range ht
  rwa [Vector.getElem_toList] at h

/-! ### The round constants (R112) -/

theorem k256_toList : k256.toList =
    k256Group0.toList ++ k256Group1.toList ++ k256Group2.toList ++ k256Group3.toList := by
  rw [k256, Vector.toList_append, Vector.toList_append, Vector.toList_append]

/-- The whole part of `2 ^ 32` times the cube root of prime number `t`: the root's own whole part, at most 6, and the
constant as its fractional bits. -/
def scaledCubeRoot (t : Fin 64) : Nat := Nat.findGreatest (· ^ 3 ≤ firstPrimes[t]) 6 * 2 ^ 32 + k256[t].toNat

theorem scaledCubeRoot_mod (t : Fin 64) : scaledCubeRoot t % 2 ^ 32 = k256[t].toNat := by
  rw [scaledCubeRoot, Nat.mul_add_mod_of_lt k256[t].isLt]

theorem scaledCubeRoot_bounds : ∀ t : Fin 64, scaledCubeRoot t ^ 3 ≤ firstPrimes[t] * 2 ^ 96 ∧
    firstPrimes[t] * 2 ^ 96 < (scaledCubeRoot t + 1) ^ 3 := by
  decide +kernel

/-! ### The rounds (R115, R116) -/

/-- Settles O48: the table is that of R112, and its constants the fractional bits of `scaledCubeRoot`; the loop of
`compress256` gives the states, `round256` each step from one to the next. -/
theorem compress256Rounds : Obligations.Compress256Rounds := by
  refine ⟨k256_toList, fun t => ?_, fun S blk => ?_⟩
  · obtain ⟨hle, hlt⟩ := scaledCubeRoot_bounds t
    exact ⟨_, _, firstPrimes_prime t, count_firstPrimes t, hle, hlt, (scaledCubeRoot_mod t).symm⟩
  · obtain ⟨v, h0, hstep, hlast⟩ := exists_states_of_foldl_finRange (round256 (schedule256 blk))
      ⟨S[0], S[1], S[2], S[3], S[4], S[5], S[6], S[7]⟩
    refine ⟨v, fun k => t1Of (schedule256 blk) (v k) (Fin.ofNat 64 k), fun k => t2Of (v k), h0, fun t => ?_, ?_⟩
    · simp only [Fin.ofNat_val_eq_self]
      exact ⟨rfl, rfl, hstep t⟩
    · rw [compress256, rounds256, hlast, addState256]

end Sys2Proof.Machine
end

section
/-! The digest as bytes and as characters (46_digest_serializer.md): the byte order of `Serialize` (R121, R122) and
the characters of `Hex` (R123). Both are lists made of blocks of one length, four bytes per word and two characters
per byte. -/

namespace Sys2Proof.Machine

/-! ### Lists made of blocks of one length -/

/-- Where every block has `n` elements, element `n * i + j` is element `j` of block `i`. -/
theorem getD_flatMap {α β : Type} {f : α → List β} {n : Nat} (hf : ∀ a, (f a).length = n) (x : β) {l : List α}
    {i j : Nat} (hi : i < l.length) (hj : j < n) : (l.flatMap f).getD (n * i + j) x = (f l[i]).getD j x := by
  induction l generalizing i with
  | nil => cases hi
  | cons a l ih =>
    rw [List.flatMap_cons]
    cases i with
    | zero => rw [Nat.mul_zero, Nat.zero_add, List.getD_append _ _ _ _ (by rwa [hf]), List.getElem_cons_zero]
    | succ i =>
      have hskip : n * (i + 1) + j - (f a).length = n * i + j := by rw [hf, Nat.mul_succ]; omega
      rw [List.getD_append_right _ _ _ _ (by rw [hf, Nat.mul_succ]; omega), hskip,
        ih (Nat.lt_of_succ_lt_succ hi), List.getElem_cons_succ]

/-! ### The byte order of the digest (R121, R122) -/

/-- The four bytes of a word, least significant first. -/
def wordBytes (w : Word) : List Byte := (List.range 4).map (byteOf w)

theorem wordBytes_length (w : Word) : (wordBytes w).length = 4 := rfl

theorem wordBytes_getD (w : Word) {j : Nat} (hj : j < 4) : (wordBytes w).getD j 0 = byteOf w j := by
  simp [wordBytes, hj]

theorem wordBytes_reverse_getD (w : Word) {j : Nat} (hj : j < 4) :
    (wordBytes w).reverse.getD j 0 = byteOf w (3 - j) := by
  rw [List.getD_reverse _ (by rwa [wordBytes_length]), wordBytes_length, wordBytes_getD w (by omega)]

theorem serialize_e128_toList (S : Vector Word 4) :
    (serialize .e128 S).toList = (List.finRange 4).flatMap fun i => wordBytes S[i] := rfl

theorem serialize_e256_toList (S : Vector Word 8) :
    (serialize .e256 S).toList = (List.finRange 8).flatMap fun i => (wordBytes S[i]).reverse := rfl

theorem serialize_e128_getD (S : Vector Word 4) (i j : Fin 4) :
    (serialize .e128 S).toList.getD (4 * i.val + j.val) 0 = byteOf S[i] j.val := by
  rw [serialize_e128_toList, getD_flatMap (fun _ => wordBytes_length _) 0 (by simp) j.isLt,
    wordBytes_getD _ j.isLt, List.getElem_finRange]
  rfl

theorem serialize_e256_getD (S : Vector Word 8) (i : Fin 8) (j : Fin 4) :
    (serialize .e256 S).toList.getD (4 * i.val + j.val) 0 = byteOf S[i] (3 - j.val) := by
  rw [serialize_e256_toList, getD_flatMap (n := 4) (fun _ => by rw [List.length_reverse, wordBytes_length]) 0
    (by simp) j.isLt, wordBytes_reverse_getD _ j.isLt, List.getElem_finRange]
  rfl

/-- Byte `j` of a word starts at bit `8 * j`. -/
theorem byteOf_toNat_shift (w : Word) (j : Nat) : (byteOf w j).toNat = w.toNat / 2 ^ (8 * j) % 256 :=
  toNat_field w (8 * j)

/-- Settles O49: byte `4i + j` is byte `j` of word `i` for `E128`, and byte `3 - j` for `E256`. -/
theorem serializeByteOrder : Obligations.SerializeByteOrder := by
  refine ⟨fun S i j => ?_, fun S i j => ?_⟩
  · have hshift : 8 * (3 - j.val) = 24 - 8 * j.val := by omega
    rw [serialize_e256_getD, byteOf_toNat_shift, hshift]
  · rw [serialize_e128_getD, byteOf_toNat_shift]

/-! ### The characters of a byte (R123) -/

theorem hexDigit_toNat (v : BitVec 4) :
    (hexDigit v).toNat = if v.toNat ≤ 9 then 0x30 + v.toNat else 0x61 + (v.toNat - 10) := by
  have hv := v.isLt
  unfold hexDigit
  split <;> rw [BitVec.toNat_ofNat, Nat.mod_eq_of_lt (by omega)]

theorem hexByte_length (b : Byte) : (hexByte b).length = 2 := rfl

theorem hex_eq_flatMap (d : List Byte) : hex d = d.flatMap hexByte := by
  induction d with
  | nil => rfl
  | cons b d ih => rw [hex, ih, List.flatMap_cons]

theorem hex_length (d : List Byte) : (hex d).length = 2 * d.length := by
  simp [hex_eq_flatMap, List.length_flatMap, hexByte_length, Nat.mul_comm]

theorem hex_getD (d : List Byte) {k j : Nat} (hk : k < d.length) (hj : j < 2) :
    (hex d).getD (2 * k + j) 0 = (hexByte (d.getD k 0)).getD j 0 := by
  rw [hex_eq_flatMap, getD_flatMap hexByte_length 0 hk hj, List.getD_eq_getElem _ _ hk]

theorem highNibble_toNat (b : Byte) : (b.extractLsb' 4 4).toNat = b.toNat / 16 := by
  have hb := b.isLt
  rw [toNat_field]
  omega

theorem lowNibble_toNat (b : Byte) : (b.extractLsb' 0 4).toNat = b.toNat % 16 := by
  rw [toNat_field, pow_zero, Nat.div_one, show 2 ^ 4 = 16 from rfl]

/-- Settles O50: characters `2k` and `2k + 1` are the digits of the two nibbles of byte `k`. -/
theorem hexCharacters : Obligations.HexCharacters := by
  refine fun d => ⟨hex_length d, fun k hk hi lo hhi hlo => ⟨?_, ?_⟩⟩
  · have hchar : (hex d).getD (2 * k) 0 = hexDigit ((d.getD k 0).extractLsb' 4 4) := hex_getD d hk Nat.two_pos
    rw [hchar, hexDigit_toNat, highNibble_toNat, hhi]
  · have hchar : (hex d).getD (2 * k + 1) 0 = hexDigit ((d.getD k 0).extractLsb' 0 4) := hex_getD d hk Nat.one_lt_two
    rw [hchar, hexDigit_toNat, lowNibble_toNat, hlo]

end Sys2Proof.Machine
end

section
/-! The one error a command reports (60_exceptions.md R147): the response of every command, said through `firstCode`,
and the errors of the body (R140, R143, R144), which change nothing. -/

namespace Sys2Proof.Machine

/-! ### The first code, check by check (R147) -/

/-- Only `RDSR` has operands that no word has (R50), and it makes no checks of the frame. -/
theorem wellFormed_of_makesFrameChecks {i : Instr} (h : makesFrameChecks i = true) : i.wellFormed = true := by
  cases i with
  | rdsr => cases h
  | _ => rfl

theorem firstCode_of_not_wellFormed {i : Instr} {s : State} (h : i.wellFormed = false) : firstCode i s = 3 :=
  if_pos h

theorem firstCode_of_faulted {i : Instr} {s : State} (hf : makesFrameChecks i = true)
    (h : (s.engine i.engine).fault = true) : firstCode i s = 6 := by
  simp [firstCode, wellFormed_of_makesFrameChecks hf, hf, h]

theorem firstCode_of_badOffset {i : Instr} {s : State} (hf : makesFrameChecks i = true)
    (h : (s.engine i.engine).fault = false) (ho : 64 ≤ (s.engine i.engine).off.toNat) : firstCode i s = 2 := by
  simp [firstCode, wellFormed_of_makesFrameChecks hf, hf, h, ho]

/-- Where decoding and the frame pass, the body decides. -/
theorem firstCode_of_ready {i : Instr} {s : State} (hw : i.wellFormed = true)
    (hr : makesFrameChecks i = true → Ready s i.engine) : firstCode i s = bodyCode i s := by
  have hnoFault : ¬ (makesFrameChecks i = true ∧ (s.engine i.engine).fault = true) := by
    rintro ⟨hf, h⟩
    exact Bool.false_ne_true ((hr hf).1.symm.trans h)
  have hoff : ¬ (makesFrameChecks i = true ∧ 64 ≤ (s.engine i.engine).off.toNat) := by
    rintro ⟨hf, h⟩
    exact absurd (hr hf).2 (by omega)
  rw [firstCode, if_neg (by simp [hw]), if_neg hnoFault, if_neg hoff]

/-- Every command that answers answers its first code (R147). -/
theorem exec_outputs_firstCode {i : Instr} {s t : State} (ht : exec i s = .next t) :
    ∃ v, t.outputs = .response ⟨firstCode i s, v⟩ :: s.outputs := by
  cases exec_cases i s with
  | faulted hf h he =>
    cases ht.symm.trans he
    exact ⟨encode i, by rw [firstCode_of_faulted hf h, answered_outputs]⟩
  | badOffset hf h ho he =>
    cases ht.symm.trans he
    exact ⟨encode i, by rw [firstCode_of_badOffset hf h ho, answered_outputs, State.outputs_setEngine]⟩
  | illegal hw _ he =>
    cases ht.symm.trans he
    exact ⟨encode i, by rw [firstCode_of_not_wellFormed hw, answered_outputs]⟩
  | bodyError hw _ hr _ he =>
    cases ht.symm.trans he
    exact ⟨encode i, by rw [firstCode_of_ready hw fun _ => hr, answered_outputs]⟩
  | success hw hr hc x m v _ he =>
    cases ht.symm.trans he
    exact ⟨v, by rw [firstCode_of_ready hw hr, hc, succeeded_outputs]⟩
  | unwritten _ _ _ _ _ _ _ _ he => cases ht.symm.trans he

/-- Settles O20: a word that does not decode by `execWord_of_illegal`, one that decodes by `exec_outputs_firstCode`. -/
theorem firstErrorWins : Obligations.FirstErrorWins := by
  refine ⟨fun w s h => execWord_of_illegal h s, fun w i s t hi ht => ?_⟩
  rw [execWord_of_decode hi] at ht
  exact exec_outputs_firstCode ht

/-! ### The errors of the body -/

/-- Where the frame passes and a check of the body fails, the command answers the code of that check and its own word,
and changes nothing (R137). -/
theorem execWord_of_bodyCode_ne_zero {w : CmdWord} {i : Instr} {s : State} {c : BitVec 4} (hi : decode w = .ok i)
    (hf : makesFrameChecks i = true) (hr : Ready s i.engine) (hc : bodyCode i s = c) (h0 : c ≠ 0) :
    execWord w s = .next (answered s c w) := by
  obtain ⟨hfault, hoff⟩ := hr
  obtain rfl := encode_eq_of_decode hi
  subst hc
  rw [execWord_of_decode hi]
  cases exec_cases i s with
  | bodyError _ _ _ _ he => exact he
  | faulted _ h => exact absurd (hfault.symm.trans h) Bool.false_ne_true
  | badOffset _ _ h => omega
  | illegal _ h => exact absurd (h.symm.trans hf) Bool.false_ne_true
  | success _ _ h => exact absurd h h0
  | unwritten _ _ _ _ _ _ h => exact absurd h h0

/-- Only `ADD` and `ADDI` test whether the engine is closed (R140). -/
theorem bodyCode_ne_one {i : Instr} (s : State) (hadd : ∀ e off len, i ≠ .add e off len)
    (haddi : ∀ e b, i ≠ .addi e b) : bodyCode i s ≠ 1 := by
  cases i with
  | add e off len => exact absurd rfl (hadd e off len)
  | addi e b => exact absurd rfl (haddi e b)
  | init | fin | rdsr => exact (by decide : (0 : BitVec 4) ≠ 1)
  | getb | geth =>
    simp only [bodyCode]
    split <;> decide

/-- The checks before the body answer the codes 3, 6 and 2. -/
theorem firstCode_ne_one {i : Instr} {s : State} (h : bodyCode i s ≠ 1) : firstCode i s ≠ 1 := by
  unfold firstCode
  split_ifs
  · decide
  · decide
  · decide
  · exact h

/-- Settles O23: on a closed engine the first check of the body fails; the other commands do not make it. -/
theorem submissionAfterCloseIsRefused : Obligations.SubmissionAfterCloseIsRefused := by
  refine ⟨fun s e hr hclosed => ⟨fun w off len hw => ?_, fun w b hw => ?_⟩, fun i s t r hadd haddi ht hout => ?_⟩
  · exact execWord_of_bodyCode_ne_zero hw rfl hr (if_pos hclosed) (by decide)
  · exact execWord_of_bodyCode_ne_zero hw rfl hr (if_pos hclosed) (by decide)
  · obtain ⟨v, hv⟩ := exec_outputs_firstCode ht
    cases hout.symm.trans hv
    exact firstCode_ne_one (bodyCode_ne_one s hadd haddi)

/-- Settles O24: on an open engine the range is the first thing `ADD` tests, and the only thing `GETB` and `GETH`
test. -/
theorem rangePastMemoryIsRefused : Obligations.RangePastMemoryIsRefused := by
  refine fun s e hr => ⟨fun w off len hw hopen hpast => ?_, fun w dst hw hpast => ?_, fun w dst hw hpast => ?_⟩
  · have hcode : bodyCode (.add e off len) s = 4 := (if_neg (by simp [hopen])).trans (if_pos hpast)
    exact execWord_of_bodyCode_ne_zero hw rfl hr hcode (by decide)
  · exact execWord_of_bodyCode_ne_zero hw rfl hr (if_pos hpast) (by decide)
  · have hpast' : s.memBytes < dst.toNat + 8 * e.nw := by omega
    exact execWord_of_bodyCode_ne_zero hw rfl hr (if_pos hpast') (by decide)

/-- Settles O25: on an open engine, and for `ADD` with its range in bounds, the counter is the next test. -/
theorem lengthOverflowIsRefused : Obligations.LengthOverflowIsRefused := by
  intro s e hr hopen
  have hnotClosed : ¬ (s.engine e).closed = true := by simp [hopen]
  refine ⟨fun w off len hw hin hover => ?_, fun w b hw hover => ?_⟩
  · have hcode : bodyCode (.add e off len) s = 5 :=
      (if_neg hnotClosed).trans ((if_neg (Nat.not_lt.2 hin)).trans (if_pos hover))
    exact execWord_of_bodyCode_ne_zero hw rfl hr hcode (by decide)
  · have hcode : bodyCode (.addi e b) s = 5 := (if_neg hnotClosed).trans (if_pos hover)
    exact execWord_of_bodyCode_ne_zero hw rfl hr hcode (by decide)

end Sys2Proof.Machine
end

section
/-! Reset (70_reset_and_hazards.md): the values it gives both engines, between two commands (R155) and during one
(R157), that nothing else clears `FAULT[e]`, and what a command cut short leaves in `MEM`. -/

namespace Sys2Proof.Machine

/-! ### One action of the host -/

theorem step_of_inputs_nil {s : State} (h : s.inputs = []) : step s = .next s := by
  rw [step, stepHost, h]

theorem step_of_inputs_cons {s : State} {act : HostAct} {rest : List HostAct} (h : s.inputs = act :: rest) :
    step s = perform act (s.setInputs rest) := by
  rw [step, stepHost, h]

/-! ### The reset values (R24, R155) -/

/-- R24's values in a machine whose engines are both just constructed. -/
theorem resetValues_of_engine {t : State} (h : ∀ e, t.engine e = EngineState.reset (iv e)) :
    t.e128.h = #v[0x67452301, 0xEFCDAB89, 0x98BADCFE, 0x10325476] ∧
    t.e256.h = #v[0x6A09E667, 0xBB67AE85, 0x3C6EF372, 0xA54FF53A, 0x510E527F, 0x9B05688C, 0x1F83D9AB,
      0x5BE0CD19] ∧
    ∀ e, (t.engine e).off = 0 ∧ (t.engine e).len = 0 ∧ (t.engine e).closed = false ∧
      (t.engine e).fault = false := by
  refine ⟨congrArg EngineState.h (h .e128), congrArg EngineState.h (h .e256), fun e => ?_⟩
  rw [h e]
  exact ⟨rfl, rfl, rfl, rfl⟩

/-! ### The fault latch (R17, R155) -/

/-- Replacing one engine clears no latch unless it clears that engine's. -/
theorem fault_setEngine {s : State} {e e' : Engine} {x : EngineState e.nw}
    (hx : (s.engine e).fault = true → x.fault = true) (h : (s.engine e').fault = true) :
    ((s.setEngine e x).engine e').fault = true := by
  rcases Engine.eq_or_eq_other e e' with rfl | rfl
  · rw [State.engine_setEngine]
    exact hx h
  · rwa [State.engine_setEngine_other]

/-- A command that succeeds leaves the latch of its engine as it was, `INIT` included (R62). -/
theorem Effect.fault_eq {i : Instr} {s : State} {x : EngineState i.engine.nw} {m : List Host.Cell} {v : BitVec 64}
    (h : Effect i s x m v) : x.fault = (s.engine i.engine).fault := by
  cases i with
  | init => rw [h.1, initEngine_fault]
  | add =>
    obtain ⟨⟨bs, -, rfl⟩, -⟩ := h
    exact submit_fault _ bs
  | addi => rw [h.1, submit_fault]
  | fin | getb | geth => rw [h.1, finalized_fault]
  | rdsr => rw [h.1]

/-- No command clears a latch: an error changes an engine only to set it, a success keeps it. -/
theorem fault_of_exec {i : Instr} {s t : State} {e : Engine} (ht : exec i s = .next t)
    (h : (s.engine e).fault = true) : (t.engine e).fault = true := by
  cases exec_cases i s with
  | faulted _ _ he | illegal _ _ he | bodyError _ _ _ _ he =>
    cases ht.symm.trans he
    rwa [answered_engine]
  | badOffset _ _ _ he =>
    cases ht.symm.trans he
    rw [answered_engine]
    exact fault_setEngine (fun _ => rfl) h
  | success _ _ _ x m v heff he =>
    cases ht.symm.trans he
    rw [succeeded, answered_engine, State.engine_setMem]
    exact fault_setEngine heff.fault_eq.trans h
  | unwritten _ _ _ _ _ _ _ _ he => cases ht.symm.trans he

theorem fault_of_execWord {w : CmdWord} {s t : State} {e : Engine} (ht : execWord w s = .next t)
    (h : (s.engine e).fault = true) : (t.engine e).fault = true := by
  by_cases hill : ∀ i, decode w ≠ .ok i
  · cases ht.symm.trans (execWord_of_illegal hill s)
    rwa [answered_engine]
  · obtain ⟨i, hi⟩ := not_forall_not.1 hill
    rw [execWord_of_decode hi] at ht
    exact fault_of_exec ht h

/-- Of the host's actions only the two resets clear a latch. -/
theorem fault_of_perform {act : HostAct} {s t : State} {e : Engine} (hreset : act ≠ .reset)
    (hduring : ∀ w, act ≠ .resetDuring w) (ht : perform act s = .next t) (h : (s.engine e).fault = true) :
    (t.engine e).fault = true := by
  cases act with
  | command w => exact fault_of_execWord ht h
  | write a b =>
    rcases hostWrite_cases a b s with ⟨-, hw⟩ | ⟨-, hw⟩ <;> cases ht.symm.trans hw
    rwa [State.engine_setMem]
  | read a =>
    obtain ⟨-, b, -, rfl⟩ := hostRead_next ht
    rwa [State.engine_observe]
  | reset => exact absurd rfl hreset
  | resetDuring w => exact absurd rfl (hduring w)
  | commandEarly | touchEarly => cases ht

/-- Settles O12: `resetValues_of_engine` for the reset, and `fault_of_perform` for every other action. -/
theorem resetConstructsBothEngines : Obligations.ResetConstructsBothEngines := by
  refine ⟨fun s rest hin => ?_, fun s t e hreset hduring ht h => ?_⟩
  · obtain ⟨h128, h256, hregs⟩ := resetValues_of_engine (State.engine_applyReset (s.setInputs rest))
    exact ⟨applyReset (s.setInputs rest), step_of_inputs_cons hin, h128, h256, hregs, rfl, rfl, rfl, rfl⟩
  · cases hin : s.inputs with
    | nil =>
      cases ht.symm.trans (step_of_inputs_nil hin)
      exact h
    | cons act rest =>
      rw [step_of_inputs_cons hin] at ht
      refine fault_of_perform (fun hact => hreset rest ?_) (fun w hact => hduring w rest ?_) ht
        (by rwa [State.engine_setInputs])
      all_goals rw [hin, hact]

/-! ### A command cut short (R157) -/

/-- Only `GETB` and `GETH` have a destination (R125, R126). -/
theorem destination_cases {i : Instr} {a : Nat} (hlo : (destination i).1 ≤ a)
    (hhi : a < (destination i).1 + (destination i).2) :
    ∃ (e : Engine) (dst : BitVec 24), (i = .getb e dst ∧ dst.toNat ≤ a ∧ a < dst.toNat + 4 * e.nw) ∨
      (i = .geth e dst ∧ dst.toNat ≤ a ∧ a < dst.toNat + 2 * (4 * e.nw)) := by
  cases i with
  | getb e dst => exact ⟨e, dst, .inl ⟨rfl, hlo, hhi⟩⟩
  | geth e dst => exact ⟨e, dst, .inr ⟨rfl, hlo, hhi⟩⟩
  | init | add | addi | fin | rdsr => exact absurd hhi (Nat.not_lt_zero a)

/-- `MEM` as a command leaves it is `MEM` as it was, unless the command answers. -/
theorem memAfter_cases (i : Instr) (s : State) :
    memAfter i s = s.mem ∨ ∃ u, exec i s = .next u ∧ memAfter i s = u.mem := by
  unfold memAfter
  cases exec i s with
  | next u => exact .inr ⟨u, rfl, rfl⟩
  | fault | refused => exact .inl rfl

/-- A byte after a command was cut short, whatever the free choice: old, or in the destination and as the command
would have written it. -/
theorem read_memCutShort (w : CmdWord) (s : State) (a : Nat) :
    Memory.read (memCutShort w s) a = Memory.read s.mem a ∨
    ∃ i u, decode w = .ok i ∧ exec i s = .next u ∧ Memory.read (memCutShort w s) a = Memory.read u.mem a ∧
      (destination i).1 ≤ a ∧ a < (destination i).1 + (destination i).2 := by
  unfold memCutShort
  cases decode w with
  | error => exact .inl rfl
  | ok i =>
    rcases read_takeBytes (Config.resetTookByte s.freeChoices) (memAfter i s) s.mem (destination i).1
      (destination i).2 a with hold | ⟨hlo, hhi, hnew⟩
    · exact .inl hold
    · rcases memAfter_cases i s with hm | ⟨u, hu, hm⟩
      · exact .inl (hm ▸ hnew)
      · exact .inr ⟨i, u, rfl, hu, hm ▸ hnew, hlo, hhi⟩

/-- Settles O13: `resetValues_of_engine` for the engines and `read_memCutShort` for `MEM`. -/
theorem resetDuringCommand : Obligations.ResetDuringCommand := by
  intro s w rest hin
  obtain ⟨h128, h256, hregs⟩ := resetValues_of_engine (t := applyResetDuring w (s.setInputs rest))
    fun e => (State.engine_applyResetDuring w _ e).trans (State.engine_applyReset _ e)
  refine ⟨applyResetDuring w (s.setInputs rest), step_of_inputs_cons hin, h128, h256, hregs, rfl, rfl, rfl,
    fun a => (read_memCutShort w (s.setInputs rest) a).imp_right ?_⟩
  rintro ⟨i, u, hi, hu, hread, hlo, hhi⟩
  obtain ⟨e, dst, hdst⟩ := destination_cases hlo hhi
  refine ⟨e, dst, u, (execWord_of_decode hi _).trans hu, hread, hdst.imp ?_ ?_⟩
  all_goals
    rintro ⟨rfl, hrange⟩
    exact ⟨hi, hrange⟩

end Sys2Proof.Machine
end

section
/-! The round trip of words and commands (30_encoding.md R50), the worked encodings (R56) and the assembler (R54). -/

namespace Sys2Proof

open Sys2Proof.Machine

/-! ### Words and commands (R50) -/

/-- Settles O1: the word of a command has the fields that `decode_eq_ok_iff` asks for. -/
theorem decodeOfEncode : Obligations.DecodeOfEncode := by
  intro i hwf
  rw [decode_eq_ok_iff]
  exact ⟨fieldZ_encode i, fieldOP_encode i, engineOf_encode i, fieldA_encode i, fieldB_encode i, hwf⟩

/-- Settles O2: the fields of a legal word are those of its command, and they determine the word. -/
theorem encodeOfDecode : Obligations.EncodeOfDecode := by
  intro w i h
  obtain ⟨-, -, -, -, -, hwf⟩ := fields_of_decode h
  exact ⟨encode_eq_of_decode h, hwf⟩

/-! ### The worked encodings (R56) -/

theorem decode_ne_ok_of_error {w : CmdWord} {r : Reject} (h : decode w = .error r) (i : Instr) : decode w ≠ .ok i := by
  rw [h]
  exact nofun

/-- Settles O6: a finite table, evaluated row by row. -/
theorem workedEncodings : Obligations.WorkedEncodings := by
  refine ⟨rfl, rfl, rfl, rfl, rfl, rfl, rfl, rfl, rfl, rfl, decode_ne_ok_of_error (r := .nonzeroZ) rfl,
    decode_ne_ok_of_error (r := .illegalSelector) rfl, decode_ne_ok_of_error (r := .unusedFieldSet) rfl, ?_⟩
  decide +kernel

/-! ### The operands of a line (R54) -/

theorem fitOperand_toNat {k : Nat} (v : BitVec k) : fitOperand k v.toNat = .ok v := by
  rw [fitOperand, if_pos v.isLt, BitVec.ofNat_toNat, BitVec.setWidth_eq]

theorem fitOperand_of_le {k n : Nat} (h : 2 ^ k ≤ n) : fitOperand k n = .error .operandTooLarge :=
  if_neg (Nat.not_lt.2 h)

theorem regSelector_word (i : Fin 8) : regSelector (.word i) = BitVec.ofNat 8 (0x10 + i.val) := by
  revert i
  decide

/-- An engine has the state words `H0` to `H(NW − 1)` and no others (R50). -/
theorem legalSel_regSelector_word (e : Engine) (i : Fin 8) :
    legalSel e (regSelector (.word i)) = decide (i.val < e.nw) := by
  cases e <;> revert i <;> decide

theorem selOperand_word_of_lt {e : Engine} {i : Fin 8} (h : i.val < e.nw) :
    selOperand e (.reg (.word i)) = .ok (BitVec.ofNat 8 (0x10 + i.val)) := by
  have hlegal : legalSel e (regSelector (.word i)) = true := by simpa [legalSel_regSelector_word] using h
  rw [selOperand, if_pos hlegal, regSelector_word]

theorem selOperand_word_of_le {e : Engine} {i : Fin 8} (h : e.nw ≤ i.val) :
    selOperand e (.reg (.word i)) = .error .noSuchRegister := by
  have hillegal : legalSel e (regSelector (.word i)) = false := by simpa [legalSel_regSelector_word] using h
  rw [selOperand, hillegal]
  rfl

/-! ### The command of a line (R54) -/

theorem assembleInstr_add (e : Engine) (off len : Nat) : assembleInstr ⟨.add, e, [.num off, .num len]⟩ =
    (fitOperand 24 off).bind fun a => (fitOperand 24 len).map fun n => .add e a n := rfl

theorem assembleInstr_addi (e : Engine) (b : Nat) :
    assembleInstr ⟨.addi, e, [.num b]⟩ = (fitOperand 8 b).map fun x => .addi e x := rfl

theorem assembleInstr_getb (e : Engine) (dst : Nat) :
    assembleInstr ⟨.getb, e, [.num dst]⟩ = (fitOperand 24 dst).map fun a => .getb e a := rfl

theorem assembleInstr_geth (e : Engine) (dst : Nat) :
    assembleInstr ⟨.geth, e, [.num dst]⟩ = (fitOperand 24 dst).map fun a => .geth e a := rfl

theorem assembleInstr_rdsr (e : Engine) (o : AsmOperand) :
    assembleInstr ⟨.rdsr, e, [o]⟩ = (selOperand e o).map fun sel => .rdsr e sel := rfl

/-- A line is assembled to the word of its command. -/
theorem assemble_eq_ok_iff {l : AsmLine} {w : CmdWord} :
    assemble l = .ok w ↔ ∃ i, assembleInstr l = .ok i ∧ w = encode i := by
  rw [assemble]
  cases assembleInstr l <;> simp [Except.map, eq_comm]

theorem assemble_ne_ok_of_error {l : AsmLine} {err : AsmError} (h : assembleInstr l = .error err) (w : CmdWord) :
    assemble l ≠ .ok w := by
  rw [assemble, h]
  exact nofun

/-- `ADD` needs both its numbers to fit. -/
theorem assembleInstr_add_error {off len : Nat} (e : Engine) (h : 2 ^ 24 ≤ off ∨ 2 ^ 24 ≤ len) :
    assembleInstr ⟨.add, e, [.num off, .num len]⟩ = .error .operandTooLarge := by
  rw [assembleInstr_add]
  rcases h with h | h
  · rw [fitOperand_of_le h]
    rfl
  · rw [fitOperand_of_le h, fitOperand]
    split <;> rfl

theorem engine_of_map_eq_ok {α : Type} {x : Except AsmError α} {f : α → Instr} {e : Engine} {i : Instr}
    (hf : ∀ a, (f a).engine = e) (h : x.map f = .ok i) : i.engine = e := by
  cases x with
  | error => cases h
  | ok a =>
    cases h
    exact hf a

/-- What a line that is not rejected looks like: the operands of R47's table, register names only for `RDSR`, and a
command of the engine named. -/
theorem assembleInstr_ok {l : AsmLine} {i : Instr} (h : assembleInstr l = .ok i) :
    l.operands.length = operandCount l.mnemonic ∧ (l.mnemonic ≠ .rdsr → ∀ r, .reg r ∉ l.operands) ∧
      i.engine = l.engine := by
  obtain ⟨m, e, ops⟩ := l
  unfold assembleInstr at h
  split at h
  all_goals
    dsimp only at *
    subst_vars
  case h_1 | h_4 =>
    cases h
    simp [operandCount]
  case h_2 off len =>
    cases ha : fitOperand 24 off with
    | error =>
      rw [ha] at h
      cases h
    | ok a =>
      rw [ha] at h
      exact ⟨rfl, by simp, engine_of_map_eq_ok (fun _ => rfl) h⟩
  case h_3 | h_5 | h_6 | h_7 => exact ⟨rfl, by simp, engine_of_map_eq_ok (fun _ => rfl) h⟩
  case h_8 => cases h

/-- Settles O7: the operands that fit by `fitOperand_toNat`, those that do not by `fitOperand_of_le`, the register
names by `legalSel_regSelector_word`, and any line that is assembled by `assembleInstr_ok`. -/
theorem assemblerFollowsSyntax : Obligations.AssemblerFollowsSyntax := by
  refine ⟨fun e => ⟨rfl, rfl, fun off len => ?_, fun b => ?_, fun dst => ⟨?_, ?_⟩, fun sel => ?_, ?_, ?_,
    fun i hi => ?_⟩, fun e w => ⟨fun off len h => ?_, fun b h => ⟨?_, ?_⟩, fun dst h => ⟨?_, ?_⟩, fun i h => ?_⟩,
    fun l w h => ?_⟩
  · rw [assembleInstr_add, fitOperand_toNat, fitOperand_toNat]
    rfl
  · rw [assembleInstr_addi, fitOperand_toNat]
    rfl
  · rw [assembleInstr_getb, fitOperand_toNat]
    rfl
  · rw [assembleInstr_geth, fitOperand_toNat]
    rfl
  · rw [assembleInstr_rdsr, selOperand, fitOperand_toNat]
    rfl
  · rfl
  · rfl
  · rw [assembleInstr_rdsr, selOperand_word_of_lt hi]
    rfl
  · exact assemble_ne_ok_of_error (assembleInstr_add_error e h) w
  · exact assemble_ne_ok_of_error (err := .operandTooLarge) (by rw [assembleInstr_addi, fitOperand_of_le h]; rfl) w
  · exact assemble_ne_ok_of_error (err := .operandTooLarge)
      (by rw [assembleInstr_rdsr, selOperand, fitOperand_of_le h]; rfl) w
  · exact assemble_ne_ok_of_error (err := .operandTooLarge) (by rw [assembleInstr_getb, fitOperand_of_le h]; rfl) w
  · exact assemble_ne_ok_of_error (err := .operandTooLarge) (by rw [assembleInstr_geth, fitOperand_of_le h]; rfl) w
  · exact assemble_ne_ok_of_error (err := .noSuchRegister) (by rw [assembleInstr_rdsr, selOperand_word_of_le h]; rfl) w
  · obtain ⟨i, hi, rfl⟩ := assemble_eq_ok_iff.1 h
    obtain ⟨hcount, hreg, hengine⟩ := assembleInstr_ok hi
    exact ⟨hcount, hreg, i, hi, hengine, rfl, decodeOfEncode i⟩

end Sys2Proof
end

section
/-! One step of the machine (00_scope.md R6, 40_commands.md R60), the host's own accesses to `MEM`, and the values
right after power-up (10_state.md section 10). -/

namespace Sys2Proof.Machine

/-! ### The host's next action -/

/-- `withFetchWord` only puts a word before what the host was going to do. -/
theorem State.setInputs_withFetchWord (s : State) (nbits w : Nat) :
    (s.withFetchWord nbits w).setInputs s.inputs = s := rfl

/-- A step on a command word that decodes runs its command. -/
theorem step_of_command {s : State} {w : CmdWord} {rest : List HostAct} {i : Instr}
    (hin : s.inputs = .command w :: rest) (hi : decode w = .ok i) : step s = exec i (s.setInputs rest) := by
  rw [step_of_inputs_cons hin, perform, execWord_of_decode hi]

/-- A table word stands for the 64-bit word it decodes as. -/
theorem decode_of_decodeTableWord {nbits w : Nat} {i : Instr} (h : decodeTableWord nbits w = some i) :
    decode (BitVec.ofNat 64 (w % 2 ^ nbits)) = .ok i := by
  unfold decodeTableWord at h
  split at h
  · split at h
    · next j hj =>
      cases h
      exact hj
    · cases h
  · cases h

/-- Settles O8: the step takes the word from the head of the host's list, where `withFetchWord` puts it. -/
theorem stepRunsTheCommand : Obligations.StepRunsTheCommand := by
  refine ⟨fun s w rest i => step_of_command, fun s nbits w i h => ?_⟩
  rw [step_of_command (s := s.withFetchWord nbits w) rfl (decode_of_decodeTableWord h),
    State.setInputs_withFetchWord]

/-- Settles O9: `step_of_inputs_nil`. -/
theorem idleStepHoldsState : Obligations.IdleStepHoldsState := fun _ => step_of_inputs_nil

/-! ### The host's accesses (20_memory.md sections 1 and 5) -/

theorem hostRead_of_read {a : Nat} {b : Byte} {s : State} (ha : a < s.memBytes) (hb : Memory.read s.mem a = some b) :
    hostRead a s = .next (s.observe (.byte a b)) := by
  rw [hostRead, if_pos ha, hb]

theorem hostRead_unwritten {a : Nat} {s : State} (ha : a < s.memBytes) (hb : Memory.read s.mem a = none) :
    hostRead a s = .fault (.unwrittenByte a) := by
  rw [hostRead, if_pos ha, hb]

theorem hostRead_of_le {a : Nat} {s : State} (ha : s.memBytes ≤ a) : hostRead a s = .fault (.noSuchAddress a) :=
  if_neg (Nat.not_lt.2 ha)

theorem hostWrite_of_lt {a : Nat} {s : State} (b : Byte) (ha : a < s.memBytes) :
    hostWrite a b s = .next (s.setMem (Memory.write s.mem a b)) := if_pos ha

theorem hostWrite_of_le {a : Nat} {s : State} (b : Byte) (ha : s.memBytes ≤ a) :
    hostWrite a b s = .fault (.noSuchAddress a) := if_neg (Nat.not_lt.2 ha)

/-- Settles O10: the laws of `Memory.write`, and the three answers of a host read. -/
theorem hostAccessesMemory : Obligations.HostAccessesMemory := by
  refine ⟨fun s a b rest hin => ⟨fun ha => ?_, fun ha => ?_⟩,
    fun s a rest hin => ⟨fun b ha hb => ?_, fun ha hb => ?_, fun ha => ?_⟩⟩
  all_goals rw [step_of_inputs_cons hin, perform]
  · exact ⟨_, hostWrite_of_lt b ha, Memory.read_write_same _ a b, fun a' hne => Memory.read_write_other _ b hne,
      rfl, rfl, rfl, rfl, rfl⟩
  · exact hostWrite_of_le b ha
  · exact hostRead_of_read ha hb
  · exact hostRead_unwritten ha hb
  · exact hostRead_of_le ha

/-! ### Power-up (R24) -/

theorem State.engine_reset (e : Engine) : State.reset.engine e = EngineState.reset (iv e) := by cases e <;> rfl

/-- Settles O11: `resetValues_of_engine`, and the empty `MEM`. -/
theorem powerUpValues : Obligations.PowerUpValues := by
  obtain ⟨h128, h256, hregs⟩ := resetValues_of_engine State.engine_reset
  exact ⟨h128, h256, hregs, fun _ => rfl⟩

end Sys2Proof.Machine
end

section
/-! Every next state of a command is one of three (`exec_answers`), and with it the invariants of 10_state.md R21 and
the canonical form of `MEM` (20_memory.md R30) along every step. -/

namespace Sys2Proof.Machine

/-! ### The next state of a command -/

/-- The next state of a command is an error that changes nothing, the fault latch of R141 (a), or its effect. -/
theorem exec_answers {i : Instr} {s t : State} (ht : exec i s = .next t) :
    (∃ c : BitVec 4, c ≠ 0 ∧ t = answered s c (encode i)) ∨
    ((s.engine i.engine).fault = false ∧ 64 ≤ (s.engine i.engine).off.toNat ∧
      t = answered (s.setEngine i.engine { s.engine i.engine with fault := true }) 2 (encode i)) ∨
    (bodyCode i s = 0 ∧ (makesFrameChecks i = true → Ready s i.engine) ∧
      ∃ x m v, Effect i s x m v ∧ t = succeeded s i.engine x m v) := by
  cases exec_cases i s with
  | faulted _ _ he =>
    cases ht.symm.trans he
    exact .inl ⟨6, by decide, rfl⟩
  | badOffset _ hfault hoff he =>
    cases ht.symm.trans he
    exact .inr (.inl ⟨hfault, hoff, rfl⟩)
  | illegal _ _ he =>
    cases ht.symm.trans he
    exact .inl ⟨3, by decide, rfl⟩
  | bodyError _ _ _ hc he =>
    cases ht.symm.trans he
    exact .inl ⟨_, hc, rfl⟩
  | success _ hr hc x m v heff he =>
    cases ht.symm.trans he
    exact .inr (.inr ⟨hc, hr, x, m, v, heff, rfl⟩)
  | unwritten _ _ _ _ _ _ _ _ he => cases ht.symm.trans he

/-- A command leaves the size of `MEM` alone. -/
theorem exec_memBytes {i : Instr} {s t : State} (ht : exec i s = .next t) : t.memBytes = s.memBytes := by
  rcases exec_answers ht with ⟨c, -, rfl⟩ | ⟨-, -, rfl⟩ | ⟨-, -, x, m, v, -, rfl⟩ <;> simp

/-! ### The canonical form of `MEM` (R30) -/

/-- The range `GETB` writes is in bounds where its checks pass (R125). -/
theorem bodyCode_getb_eq_zero_iff {e : Engine} {dst : BitVec 24} {s : State} :
    bodyCode (.getb e dst) s = 0 ↔ dst.toNat + 4 * e.nw ≤ s.memBytes := by
  rw [← Nat.not_lt]
  simp only [bodyCode]
  split_ifs with h <;> simp [h]

/-- The range `GETH` writes is in bounds where its checks pass (R126). -/
theorem bodyCode_geth_eq_zero_iff {e : Engine} {dst : BitVec 24} {s : State} :
    bodyCode (.geth e dst) s = 0 ↔ dst.toNat + 2 * (4 * e.nw) ≤ s.memBytes := by
  rw [← Nat.mul_assoc, ← Nat.not_lt]
  simp only [bodyCode]
  split_ifs with h <;> simp [h]

/-- A command that succeeds changes `MEM` by one run of bytes, inside the address space. -/
theorem Effect.mem_eq {i : Instr} {s : State} {x : EngineState i.engine.nw} {m : List Host.Cell} {v : BitVec 64}
    (h : Effect i s x m v) (hc : bodyCode i s = 0) :
    m = s.mem ∨ ∃ a bs, a + bs.length ≤ s.memBytes ∧ m = Memory.writeBytes s.mem a bs := by
  cases i with
  | init | add | addi | fin | rdsr => exact .inl h.2.1
  | getb e dst =>
    refine .inr ⟨_, _, ?_, h.2.1⟩
    rw [Vector.length_toList]
    exact bodyCode_getb_eq_zero_iff.1 hc
  | geth e dst =>
    refine .inr ⟨_, _, ?_, h.2.1⟩
    rw [hex_length, Vector.length_toList]
    exact bodyCode_geth_eq_zero_iff.1 hc

theorem memoryOk_of_eq {s t : State} (h : MemoryOk s) (hm : t.mem = s.mem) (hb : t.memBytes = s.memBytes) :
    MemoryOk t := by
  rwa [MemoryOk, hm, hb]

theorem memoryOk_of_wf_within {s t : State} (h : MemoryOk s) (hwf : Memory.wf t.mem = true)
    (hin : Memory.within s.memBytes t.mem = true) (hb : t.memBytes = s.memBytes) : MemoryOk t := by
  obtain ⟨-, -, hlo, hhi⟩ := h
  exact ⟨hwf, hb ▸ hin, hb ▸ hlo, hb ▸ hhi⟩

theorem memoryOk_of_exec {i : Instr} {s t : State} (h : MemoryOk s) (ht : exec i s = .next t) : MemoryOk t := by
  rcases exec_answers ht with ⟨c, -, rfl⟩ | ⟨-, -, rfl⟩ | ⟨hc, -, x, m, v, heff, rfl⟩
  · exact memoryOk_of_eq h rfl rfl
  · exact memoryOk_of_eq h (by simp) (by simp)
  · rcases heff.mem_eq hc with rfl | ⟨a, bs, hbound, rfl⟩
    · exact memoryOk_of_eq h (by simp) (by simp)
    · obtain ⟨hwf, hin, -, -⟩ := id h
      refine memoryOk_of_wf_within h ?_ ?_ (succeeded_memBytes ..) <;> rw [succeeded_mem]
      · exact Memory.wf_writeBytes a bs hwf
      · exact Memory.within_writeBytes bs hin hbound

theorem memoryOk_of_execWord {w : CmdWord} {s t : State} (h : MemoryOk s) (ht : execWord w s = .next t) :
    MemoryOk t ∧ t.memBytes = s.memBytes := by
  by_cases hill : ∀ i, decode w ≠ .ok i
  · cases ht.symm.trans (execWord_of_illegal hill s)
    exact ⟨memoryOk_of_eq h rfl rfl, rfl⟩
  · obtain ⟨i, hi⟩ := not_forall_not.1 hill
    rw [execWord_of_decode hi] at ht
    exact ⟨memoryOk_of_exec h ht, exec_memBytes ht⟩

/-- `MEM` after the whole command is inside the address space, so a command cut short keeps its form too (R157). -/
theorem memoryOk_of_resetDuring {w : CmdWord} {s : State} (h : MemoryOk s) : MemoryOk (applyResetDuring w s) := by
  obtain ⟨hwf, hin, -, -⟩ := id h
  have hafter (i : Instr) : Memory.within s.memBytes (memAfter i s) = true := by
    rcases memAfter_cases i s with hm | ⟨u, hu, hm⟩ <;> rw [hm]
    · exact hin
    · obtain ⟨-, huin, -, -⟩ := memoryOk_of_exec h hu
      rwa [← exec_memBytes hu]
  obtain ⟨hcwf, hcin⟩ := memCutShort_ok (w := w) hwf hin hafter
  exact memoryOk_of_wf_within h hcwf hcin rfl

theorem memoryOk_of_perform {act : HostAct} {s t : State} (h : MemoryOk s) (ht : perform act s = .next t) :
    MemoryOk t ∧ t.memBytes = s.memBytes := by
  cases act with
  | command w => exact memoryOk_of_execWord h ht
  | write a b =>
    obtain ⟨hwf, hin, -, -⟩ := id h
    rcases hostWrite_cases a b s with ⟨ha, hw⟩ | ⟨-, hw⟩ <;> cases ht.symm.trans hw
    exact ⟨memoryOk_of_wf_within h (Memory.wf_write a b hwf) (Memory.within_write b hin ha) rfl, rfl⟩
  | read a =>
    obtain ⟨-, b, -, rfl⟩ := hostRead_next ht
    exact ⟨memoryOk_of_eq h rfl rfl, rfl⟩
  | reset =>
    cases ht
    exact ⟨memoryOk_of_eq h rfl rfl, rfl⟩
  | resetDuring w =>
    cases ht
    exact ⟨memoryOk_of_resetDuring h, rfl⟩
  | commandEarly | touchEarly => cases ht

/-- Settles O16: every write to `MEM` is inside the address space, by the host's test or by the command's. -/
theorem stepKeepsMemoryCanonical : Obligations.StepKeepsMemoryCanonical := by
  intro s t h ht
  cases hin : s.inputs with
  | nil =>
    cases ht.symm.trans (step_of_inputs_nil hin)
    exact ⟨h, rfl⟩
  | cons act rest =>
    rw [step_of_inputs_cons hin] at ht
    exact memoryOk_of_perform (s := s.setInputs rest) h ht

/-! ### The registers of an engine (R21) -/

theorem engineOk_reset (e : Engine) : EngineOk e (EngineState.reset (iv e)) :=
  ⟨rfl, Nat.zero_le 63, rfl, fun _ => by simp [EngineState.reset], nofun, nofun⟩

theorem engineOk_initEngine {e : Engine} {x : EngineState e.nw} (h : EngineOk e x) : EngineOk e (initEngine e x) :=
  ⟨h.notFaulted, Nat.zero_le 63, rfl, fun _ => by simp, nofun, nofun⟩

/-- Submitting bytes moves the offset and the counter together. -/
theorem engineOk_submit {e : Engine} {x : EngineState e.nw} {v : List Byte} (h : EngineOk e x)
    (hopen : x.closed = false) (hlen : x.len.toNat + 8 * v.length ≤ 2 ^ 64 - 1) : EngineOk e (submit e x v) := by
  have hl := submit_len_toNat hlen
  have ho := submit_off h.offset v
  have hwhole := h.wholeBytes
  have hsync := h.openOffset hopen
  have hstill : (submit e x v).closed = false := (submit_closed x v).trans hopen
  refine ⟨(submit_fault x v).trans h.notFaulted, by omega, by omega, fun _ => by omega, fun hc => ?_, fun hc => ?_⟩
  all_goals exact absurd (hstill.symm.trans hc) Bool.false_ne_true

theorem engineOk_finalized {e : Engine} {x : EngineState e.nw} (h : EngineOk e x) : EngineOk e (finalized e x) := by
  cases hclosed : x.closed with
  | true => rwa [finalized_of_closed hclosed]
  | false =>
    have ho := absorbTail_off h.offset
    rw [finalized_of_open hclosed]
    refine ⟨(absorbTail_fault x).trans h.notFaulted, ?_, ?_, nofun, fun _ => ho, fun _ => rfl⟩
    · rw [closeEngine_off, ho]
      exact Nat.zero_le 63
    · rw [closeEngine_len, absorbTail_len]
      exact h.wholeBytes

theorem Effect.engineOk {i : Instr} {s : State} {x : EngineState i.engine.nw} {m : List Host.Cell} {v : BitVec 64}
    (heff : Effect i s x m v) (hc : bodyCode i s = 0) (h : EngineOk i.engine (s.engine i.engine)) :
    EngineOk i.engine x := by
  cases i with
  | init => exact heff.1 ▸ engineOk_initEngine h
  | add e off len =>
    obtain ⟨⟨bs, hbs, rfl⟩, -⟩ := heff
    obtain ⟨hopen, -, hlen⟩ := bodyCode_add_eq_zero_iff.1 hc
    exact engineOk_submit h hopen ((Memory.readBytes_ok hbs).1.symm ▸ hlen)
  | addi e b =>
    obtain ⟨hopen, hlen⟩ := bodyCode_addi_eq_zero_iff.1 hc
    exact heff.1 ▸ engineOk_submit (v := [b]) h hopen hlen
  | fin | getb | geth => exact heff.1 ▸ engineOk_finalized h
  | rdsr => exact heff.1 ▸ h

/-! ### The invariant of the machine (R21) -/

theorem engineOk_of_machineInv {s : State} (h : MachineInv s) (e : Engine) : EngineOk e (s.engine e) := by
  cases e with
  | e128 => exact h.e128
  | e256 => exact h.e256

theorem machineInv_of_engine {s : State} (hm : MemoryOk s) (h : ∀ e, EngineOk e (s.engine e)) : MachineInv s :=
  ⟨hm, h .e128, h .e256⟩

/-- Settles O14: both engines are just constructed, and `MEM` is empty. -/
theorem invariantAtReset : Obligations.InvariantAtReset :=
  machineInv_of_engine ⟨rfl, rfl, by decide, by decide⟩ fun e => State.engine_reset e ▸ engineOk_reset e

/-- A command keeps what R21 says of the registers of each engine: its effect on its own engine does, and it has none
on the other; and the entry check of R141 (a) does not fail. -/
theorem engineOk_of_exec {i : Instr} {s t : State} (h : ∀ e, EngineOk e (s.engine e)) (ht : exec i s = .next t)
    (e : Engine) : EngineOk e (t.engine e) := by
  rcases exec_answers ht with ⟨c, -, rfl⟩ | ⟨-, hoff, -⟩ | ⟨hc, -, x, m, v, heff, rfl⟩
  · rw [answered_engine]
    exact h e
  · exact absurd (h i.engine).offset (by omega)
  · rcases Engine.eq_or_eq_other i.engine e with rfl | rfl
    · rw [succeeded_engine]
      exact heff.engineOk hc (h _)
    · rw [succeeded_engine_other]
      exact h _

theorem engineOk_of_perform {act : HostAct} {s t : State} (h : ∀ e, EngineOk e (s.engine e))
    (ht : perform act s = .next t) (e : Engine) : EngineOk e (t.engine e) := by
  cases act with
  | command w =>
    by_cases hill : ∀ i, decode w ≠ .ok i
    · cases ht.symm.trans (execWord_of_illegal hill s)
      rw [answered_engine]
      exact h e
    · obtain ⟨i, hi⟩ := not_forall_not.1 hill
      exact engineOk_of_exec h ((execWord_of_decode hi s).symm.trans ht) e
  | write a b =>
    rcases hostWrite_cases a b s with ⟨-, hw⟩ | ⟨-, hw⟩ <;> cases ht.symm.trans hw
    rw [State.engine_setMem]
    exact h e
  | read a =>
    obtain ⟨-, b, -, rfl⟩ := hostRead_next ht
    rw [State.engine_observe]
    exact h e
  | reset =>
    cases ht
    rw [State.engine_applyReset]
    exact engineOk_reset e
  | resetDuring w =>
    cases ht
    rw [State.engine_applyResetDuring, State.engine_applyReset]
    exact engineOk_reset e
  | commandEarly | touchEarly => cases ht

/-- Settles O15: `stepKeepsMemoryCanonical` for `MEM`, and `engineOk_of_perform` for the engines. -/
theorem stepKeepsInvariant : Obligations.StepKeepsInvariant := by
  intro s t h ht
  obtain ⟨hm, -⟩ := stepKeepsMemoryCanonical s t h.memory ht
  refine machineInv_of_engine hm ?_
  cases hin : s.inputs with
  | nil =>
    cases ht.symm.trans (step_of_inputs_nil hin)
    exact engineOk_of_machineInv h
  | cons act rest =>
    rw [step_of_inputs_cons hin] at ht
    refine engineOk_of_perform (fun e => ?_) ht
    rw [State.engine_setInputs]
    exact engineOk_of_machineInv h e

end Sys2Proof.Machine
end

section
/-! The checks every command but `RDSR` makes (60_exceptions.md R141, R145), the conditions an engine moves between
(10_state.md R20), the independence of the engines (R10), and `INIT` and `RDSR` (40_commands.md R62, R63). -/

namespace Sys2Proof.Machine

/-! ### What `exec` answers where a check fails -/

theorem exec_of_faulted {i : Instr} {s : State} (hf : makesFrameChecks i = true)
    (h : (s.engine i.engine).fault = true) : exec i s = .next (answered s 6 (encode i)) := by
  cases exec_cases i s with
  | faulted _ _ he => exact he
  | badOffset _ hn => exact absurd (hn.symm.trans h) Bool.false_ne_true
  | illegal _ hn => exact absurd (hn.symm.trans hf) Bool.false_ne_true
  | bodyError _ _ hr => exact absurd (hr.1.symm.trans h) Bool.false_ne_true
  | success _ hr => exact absurd ((hr hf).1.symm.trans h) Bool.false_ne_true
  | unwritten e off len a hi hr =>
    subst hi
    exact absurd (hr.1.symm.trans h) Bool.false_ne_true

theorem exec_of_badOffset {i : Instr} {s : State} (hf : makesFrameChecks i = true)
    (h : (s.engine i.engine).fault = false) (ho : 64 ≤ (s.engine i.engine).off.toNat) : exec i s =
      .next (answered (s.setEngine i.engine { s.engine i.engine with fault := true }) 2 (encode i)) := by
  cases exec_cases i s with
  | badOffset _ _ _ he => exact he
  | faulted _ hn => exact absurd (h.symm.trans hn) Bool.false_ne_true
  | illegal _ hn => exact absurd (hn.symm.trans hf) Bool.false_ne_true
  | bodyError _ _ hr => exact absurd hr.2 (by omega)
  | success _ hr => exact absurd (hr hf).2 (by omega)
  | unwritten e off len a hi hr =>
    subst hi
    exact absurd hr.2 (Nat.not_le.2 ho)

theorem exec_of_not_wellFormed {i : Instr} {s : State} (hw : i.wellFormed = false) :
    exec i s = .next (answered s 3 (encode i)) := by
  have hframe {P : Prop} (hf : makesFrameChecks i = true) : P :=
    absurd (hw.symm.trans (wellFormed_of_makesFrameChecks hf)) Bool.false_ne_true
  cases exec_cases i s with
  | illegal _ _ he => exact he
  | faulted hf | badOffset hf | bodyError _ hf => exact hframe hf
  | success hn => exact absurd (hw.symm.trans hn) Bool.false_ne_true
  | unwritten e off len a hi =>
    subst hi
    exact hframe rfl

theorem exec_of_bodyCode_ne_zero {i : Instr} {s : State} (hf : makesFrameChecks i = true) (hr : Ready s i.engine)
    (h0 : bodyCode i s ≠ 0) : exec i s = .next (answered s (bodyCode i s) (encode i)) := by
  have hdecode := decodeOfEncode i (wellFormed_of_makesFrameChecks hf)
  rw [← execWord_of_decode hdecode]
  exact execWord_of_bodyCode_ne_zero hdecode hf hr rfl h0

theorem exec_of_unwritten {e : Engine} {off len : BitVec 24} {s : State} {a : Nat} (hr : Ready s e)
    (hc : bodyCode (.add e off len) s = 0) (hread : Memory.readBytes s.mem off.toNat len.toNat = .error a) :
    exec (.add e off len) s = .fault (.unwrittenByte a) := by
  obtain ⟨hfault, hoff⟩ := hr
  cases exec_cases (.add e off len) s with
  | unwritten e' off' len' a' hi _ _ hread' he =>
    cases hi
    cases hread.symm.trans hread'
    exact he
  | faulted _ h => exact absurd (hfault.symm.trans h) Bool.false_ne_true
  | badOffset _ _ h => exact absurd hoff (Nat.not_le.2 h)
  | illegal h => cases h
  | bodyError _ _ _ h => exact absurd hc h
  | success _ _ _ x m v heff =>
    obtain ⟨⟨bs, hbs, -⟩, -⟩ := heff
    cases hread.symm.trans hbs

/-- Settles O21: `exec_of_faulted`, with the word as the word of its command. -/
theorem faultedEngineRefusesCommands : Obligations.FaultedEngineRefusesCommands := by
  intro w i s hi hf h
  rw [execWord_of_decode hi, exec_of_faulted hf h, encode_eq_of_decode hi]

/-- Settles O22: `exec_of_badOffset`, with the word as the word of its command. -/
theorem badOffsetFaultsEngine : Obligations.BadOffsetFaultsEngine := by
  intro w i s hi hf h ho
  rw [execWord_of_decode hi, exec_of_badOffset hf h ho, encode_eq_of_decode hi]

/-! ### The errors of a defect (R141) -/

/-- No check of the body is one of those of the frame. -/
theorem bodyCode_ne_two_and_ne_six (i : Instr) (s : State) : bodyCode i s ≠ 2 ∧ bodyCode i s ≠ 6 := by
  cases i with
  | init | fin | rdsr => exact ⟨by simp [bodyCode], by simp [bodyCode]⟩
  | add | addi | getb | geth =>
    simp only [bodyCode]
    split_ifs <;> decide

/-- On an engine that passes the checks of the frame the first code is neither of theirs. -/
theorem firstCode_ne_two_and_ne_six {i : Instr} {s : State} (hr : Ready s i.engine) :
    firstCode i s ≠ 2 ∧ firstCode i s ≠ 6 := by
  cases hw : i.wellFormed with
  | false =>
    rw [firstCode_of_not_wellFormed hw]
    decide
  | true =>
    rw [firstCode_of_ready hw fun _ => hr]
    exact bodyCode_ne_two_and_ne_six i s

theorem ready_of_engineOk {e : Engine} {s : State} (h : EngineOk e (s.engine e)) : Ready s e :=
  ⟨h.notFaulted, h.offset⟩

/-- Settles O17: the response has the first code, which on a ready engine is neither 2 nor 6. -/
theorem defectErrorsUnreachable : Obligations.DefectErrorsUnreachable := by
  refine ⟨fun s t w r hinv ht hout => ?_, fun i s t r hr ht hout => ?_⟩
  · by_cases hill : ∀ i, decode w ≠ .ok i
    · cases ht.symm.trans (execWord_of_illegal hill s)
      cases hout
      exact (by decide : (3 : BitVec 4) ≠ 2 ∧ (3 : BitVec 4) ≠ 6)
    · obtain ⟨i, hi⟩ := not_forall_not.1 hill
      obtain ⟨v, hv⟩ := exec_outputs_firstCode ((execWord_of_decode hi s).symm.trans ht)
      cases hout.symm.trans hv
      exact firstCode_ne_two_and_ne_six (ready_of_engineOk (engineOk_of_machineInv hinv i.engine))
  · obtain ⟨v, hv⟩ := exec_outputs_firstCode ht
    cases hout.symm.trans hv
    exact (firstCode_ne_two_and_ne_six hr).1

/-! ### The engines are independent (R10, 20_memory.md section 5) -/

/-- A command leaves the other engine alone. -/
theorem exec_engine_other {i : Instr} {s t : State} (ht : exec i s = .next t) :
    t.engine i.engine.other = s.engine i.engine.other := by
  rcases exec_answers ht with ⟨c, -, rfl⟩ | ⟨-, -, rfl⟩ | ⟨-, -, x, m, v, -, rfl⟩ <;> simp

@[simp] theorem State.engine_setEngine_of_other (s : State) (e : Engine) (y : EngineState e.other.nw) :
    (s.setEngine e.other y).engine e = s.engine e := by cases e <;> rfl

theorem answered_setEngine (s : State) (c : BitVec 4) (v : BitVec 64) (e : Engine) (y : EngineState e.nw) :
    (answered s c v).setEngine e y = answered (s.setEngine e y) c v := State.setEngine_observe s e y _

theorem succeeded_setEngine_other (s : State) (e : Engine) (x : EngineState e.nw) (m : List Host.Cell)
    (v : BitVec 64) (y : EngineState e.other.nw) :
    (succeeded s e x m v).setEngine e.other y = succeeded (s.setEngine e.other y) e x m v := by cases e <;> rfl

/-- The checks of the body read no engine but the command's own. -/
theorem bodyCode_setEngine_other (i : Instr) (s : State) (y : EngineState i.engine.other.nw) :
    bodyCode i (s.setEngine i.engine.other y) = bodyCode i s := by
  cases i <;> simp only [bodyCode, State.engine_setEngine_of_other, State.memBytes_setEngine]

/-- The effect of a command reads no engine but its own. -/
theorem Effect.setEngine_other {i : Instr} {s : State} {x : EngineState i.engine.nw} {m : List Host.Cell}
    {v : BitVec 64} (h : Effect i s x m v) (y : EngineState i.engine.other.nw) :
    Effect i (s.setEngine i.engine.other y) x m v := by
  cases i <;> simpa only [Effect, State.engine_setEngine_of_other, State.mem_setEngine] using h

theorem ready_setEngine_other {e : Engine} {s : State} (h : Ready s e) (y : EngineState e.other.nw) :
    Ready (s.setEngine e.other y) e := by
  rwa [Ready, State.engine_setEngine_of_other]

/-- Settles O26: each answer of `exec_cases`, with its premises and its next state carried over to the other state. -/
theorem enginesAreIndependent : Obligations.EnginesAreIndependent := by
  refine ⟨fun i s t => exec_engine_other, fun i s t y ht => ?_⟩
  have hbody := bodyCode_setEngine_other i s y
  cases exec_cases i s with
  | faulted hf h he =>
    cases ht.symm.trans he
    rw [exec_of_faulted hf (by rwa [State.engine_setEngine_of_other]), answered_setEngine]
  | badOffset hf h ho he =>
    cases ht.symm.trans he
    rw [exec_of_badOffset hf (by rwa [State.engine_setEngine_of_other]) (by rwa [State.engine_setEngine_of_other]),
      answered_setEngine, State.engine_setEngine_of_other, State.setEngine_comm]
  | illegal hw _ he =>
    cases ht.symm.trans he
    rw [exec_of_not_wellFormed hw, answered_setEngine]
  | bodyError _ hf hr hc he =>
    cases ht.symm.trans he
    rw [exec_of_bodyCode_ne_zero hf (ready_setEngine_other hr y) (by rwa [hbody]), hbody, answered_setEngine]
  | success hw hr hc x m v heff he =>
    cases ht.symm.trans he
    rw [exec_of_effect (fun hf => ready_setEngine_other (hr hf) y) hw (hbody.trans hc) (heff.setEngine_other y),
      succeeded_setEngine_other]
  | unwritten _ _ _ _ _ _ _ _ he => cases ht.symm.trans he

/-! ### The conditions of an engine (R20) -/

theorem condition_eq_faulted_iff {nw : Nat} {x : EngineState nw} : condition x = .faulted ↔ x.fault = true := by
  unfold condition
  split_ifs <;> simp_all

/-- The condition is a function of the two flags. -/
theorem condition_congr {nw : Nat} {x y : EngineState nw} (hfault : x.fault = y.fault)
    (hclosed : x.closed = y.closed) : condition x = condition y := by
  rw [condition, condition, hfault, hclosed]

theorem condition_of_closed {nw : Nat} {x : EngineState nw} (hfault : x.fault = false) (hclosed : x.closed = true) :
    condition x = .closed := by
  simp [condition, hfault, hclosed]

theorem condition_of_open {nw : Nat} {x : EngineState nw} (hfault : x.fault = false) (hclosed : x.closed = false) :
    condition x = .opened := by
  simp [condition, hfault, hclosed]

/-- On an engine that passes the frame, where the checks of the body pass, a next state is a success. -/
theorem success_of_exec {i : Instr} {s t : State} (hr : Ready s i.engine) (hw : i.wellFormed = true)
    (hc : bodyCode i s = 0) (ht : exec i s = .next t) :
    ∃ x m v, Effect i s x m v ∧ t = succeeded s i.engine x m v := by
  obtain ⟨hfault, hoff⟩ := hr
  cases exec_cases i s with
  | success _ _ _ x m v heff he =>
    cases ht.symm.trans he
    exact ⟨x, m, v, heff, rfl⟩
  | faulted _ h => exact absurd (hfault.symm.trans h) Bool.false_ne_true
  | badOffset _ _ h => exact absurd hoff (Nat.not_le.2 h)
  | illegal h => exact absurd (h.symm.trans hw) Bool.false_ne_true
  | bodyError _ _ _ h => exact absurd hc h
  | unwritten _ _ _ _ _ _ _ _ he => cases ht.symm.trans he

/-- A submission and `RDSR` leave `CLOSED` alone (R82, R83, R63). -/
theorem Effect.closed_eq {i : Instr} {s : State} {x : EngineState i.engine.nw} {m : List Host.Cell} {v : BitVec 64}
    {off len : BitVec 24} {b sel : Byte} (h : Effect i s x m v)
    (hi : i = .add i.engine off len ∨ i = .addi i.engine b ∨ i = .rdsr i.engine sel) :
    x.closed = (s.engine i.engine).closed := by
  cases i with
  | add =>
    obtain ⟨⟨bs, -, rfl⟩, -⟩ := h
    exact submit_closed _ bs
  | addi => rw [h.1, submit_closed]
  | rdsr => rw [h.1]
  | init | fin | getb | geth => simp at hi

/-- On an engine that passes the frame, a command whose effect leaves `CLOSED` alone keeps the condition. -/
theorem condition_of_exec {i : Instr} {s t : State} (hr : Ready s i.engine)
    (hclosed : ∀ x m v, Effect i s x m v → x.closed = (s.engine i.engine).closed) (ht : exec i s = .next t) :
    condition (t.engine i.engine) = condition (s.engine i.engine) := by
  rcases exec_answers ht with ⟨c, -, rfl⟩ | ⟨-, hoff, -⟩ | ⟨-, -, x, m, v, heff, rfl⟩
  · rw [answered_engine]
  · exact absurd hr.2 (by omega)
  · rw [succeeded_engine]
    exact condition_congr heff.fault_eq (hclosed x m v heff)

/-- Settles O18: the condition is a function of `FAULT` and `CLOSED`; what each effect does to `CLOSED`, and that none
clears `FAULT` or touches the other engine. -/
theorem conditionTransitions : Obligations.ConditionTransitions := by
  refine ⟨fun s t e hr ht => ?_, fun s t e i dst hi hr hc ht => ?_, fun s t e i off len b sel hi hr ht => ?_,
    fun s t i ht => ⟨fun hfaulted => ?_, congrArg condition (exec_engine_other ht)⟩⟩
  · obtain ⟨x, m, v, ⟨rfl, -⟩, rfl⟩ := success_of_exec (i := .init e) hr rfl rfl ht
    rw [succeeded_engine (e := e)]
    exact condition_of_open hr.1 rfl
  · have he : i.engine = e ∧ i.wellFormed = true := by rcases hi with rfl | rfl | rfl <;> exact ⟨rfl, rfl⟩
    obtain ⟨rfl, hw⟩ := he
    obtain ⟨x, m, v, heff, rfl⟩ := success_of_exec hr hw hc ht
    rw [succeeded_engine, heff.eq_finalized hi]
    exact condition_of_closed ((finalized_fault ..).trans hr.1) (finalized_closed ..)
  · have he : i.engine = e := by rcases hi with rfl | rfl | rfl <;> rfl
    subst he
    exact condition_of_exec hr (fun x m v heff => heff.closed_eq hi) ht
  · rw [condition_eq_faulted_iff] at hfaulted ⊢
    exact fault_of_exec ht hfaulted

/-! ### `INIT` and `RDSR` (R62, R63) -/

/-- Settles O27: the effect of `INIT`, field by field. -/
theorem initMakesEngineNew : Obligations.InitMakesEngineNew := by
  intro s e hr
  refine ⟨_, exec_of_effect (i := .init e) (fun _ => hr) rfl rfl ⟨rfl, rfl, rfl⟩, ?_⟩
  simp

theorem toNat_ofBool_eq (b : Bool) : (BitVec.ofBool b).toNat = if b then 1 else 0 := by cases b <;> rfl

/-- `STATUS` as a number (R19). -/
theorem statusWord_toNat {nw : Nat} (x : EngineState nw) : (statusWord x).toNat =
    (if x.closed then 1 else 0) + 2 * (if x.fault then 1 else 0) + 256 * x.off.toNat := by
  rw [statusWord, BitVec.toNat_setWidth_of_le (by decide), toNat_append_eq, toNat_append_eq, toNat_append_eq,
    toNat_ofBool_eq, toNat_ofBool_eq, show (0 : BitVec 6).toNat = 0 from rfl]
  ring

/-- The state words are the registers from `0x10` on (R19). -/
theorem statusRegister_word {e : Engine} (x : EngineState e.nw) (i : Fin e.nw) :
    statusRegister e (BitVec.ofNat 8 (0x10 + i.val)) x = some (x.h[i].zeroExtend 64) := by
  have hi : i.val < 8 := i.isLt.trans_le (by cases e <;> decide)
  have hsel : (BitVec.ofNat 8 (0x10 + i.val)).toNat = 0x10 + i.val := by
    rw [BitVec.toNat_ofNat, Nat.mod_eq_of_lt (by omega)]
  have hne (k : BitVec 8) (hk : k.toNat < 0x10) : BitVec.ofNat 8 (0x10 + i.val) ≠ k := by
    rintro rfl
    omega
  have hrange : selH0.toNat ≤ 0x10 + i.val ∧ 0x10 + i.val - selH0.toNat < e.nw := by
    rw [show selH0.toNat = 0x10 from rfl]
    omega
  rw [statusRegister, if_neg (hne _ (by decide)), if_neg (hne _ (by decide))]
  simp only [hsel, dif_pos hrange]
  simp [selH0]

/-- `RDSR` of a register the engine has answers it, in every state (R63). -/
theorem exec_rdsr_of_statusRegister {e : Engine} {sel : BitVec 8} {s : State} {v : BitVec 64}
    (h : statusRegister e sel (s.engine e) = some v) : exec (.rdsr e sel) s = .next (answered s 0 v) := by
  have hw : (Instr.rdsr e sel).wellFormed = true := by
    rw [Instr.wellFormed, ← statusRegister_isSome e sel (s.engine e), h]
    rfl
  rw [exec_of_effect (i := .rdsr e sel) nofun hw rfl ⟨rfl, rfl, h⟩, succeeded_same]

/-- Settles O28: each legal selector is a register, given as a number; any other is a term no word decodes to. -/
theorem rdsrReadsRegister : Obligations.RdsrReadsRegister := by
  refine fun s e => ⟨⟨statusWord (s.engine e), statusWord_toNat _, exec_rdsr_of_statusRegister rfl⟩,
    exec_rdsr_of_statusRegister rfl, fun i => ⟨(s.engine e).h[i].zeroExtend 64, ?_, ?_⟩, fun sel hsel => ?_⟩
  · exact BitVec.toNat_setWidth_of_le (by decide)
  · exact exec_rdsr_of_statusRegister (statusRegister_word _ i)
  · exact exec_of_not_wellFormed hsel

end Sys2Proof.Machine
end

section
/-! `ADD` and `ADDI` (42_incremental_buffer.md R82, R83): what they submit, where `ADD` stops, what they leave alone,
and that it does not matter how the bytes are cut into pieces (R81, R85). -/

namespace Sys2Proof.Machine

/-! ### Where a submission succeeds, and where it stops -/

theorem bodyCode_add_eq_zero {e : Engine} {off len : BitVec 24} {s : State} (hopen : (s.engine e).closed = false)
    (hin : off.toNat + len.toNat ≤ s.memBytes) (hlen : (s.engine e).len.toNat + 8 * len.toNat ≤ 2 ^ 64 - 1) :
    bodyCode (.add e off len) s = 0 :=
  bodyCode_add_eq_zero_iff.2 ⟨hopen, hin, hlen⟩

/-- An `ADD` whose checks pass submits the bytes it reads (R82). -/
theorem exec_add {e : Engine} {off len : BitVec 24} {s : State} {bs : List Byte} (hr : Ready s e)
    (hc : bodyCode (.add e off len) s = 0) (hread : Memory.readBytes s.mem off.toNat len.toNat = .ok bs) :
    exec (.add e off len) s = .next (answered (s.setEngine e (submit e (s.engine e) bs)) 0 0) := by
  rw [exec_of_effect (i := .add e off len) (fun _ => hr) rfl hc ⟨⟨bs, hread, rfl⟩, rfl, rfl⟩, succeeded_same_mem]

/-- An `ADDI` whose checks pass submits its byte (R83). -/
theorem exec_addi {e : Engine} {b : Byte} {s : State} (hr : Ready s e) (hc : bodyCode (.addi e b) s = 0) :
    exec (.addi e b) s = .next (answered (s.setEngine e (submit e (s.engine e) [b])) 0 0) := by
  rw [exec_of_effect (i := .addi e b) (fun _ => hr) rfl hc ⟨rfl, rfl, rfl⟩, succeeded_same_mem]

/-- Settles O29: `exec_add`, with what `submit` does to each element of the engine. -/
theorem addSubmitsBytes : Obligations.AddSubmitsBytes := by
  intro s e off len hr hopen hin hlen hwritten
  obtain ⟨v, hv⟩ := Memory.readBytes_of_written hwritten
  obtain ⟨hvlen, hvread⟩ := Memory.readBytes_ok hv
  obtain ⟨hblocks, hpending⟩ := submit_blocks hr.2 v
  have hcounter := submit_len_toNat (x := s.engine e) (v := v) (by rwa [hvlen])
  have hoffset := submit_off hr.2 v
  rw [hvlen] at hblocks hpending hcounter hoffset
  refine ⟨_, v, exec_add hr (bodyCode_add_eq_zero hopen hin hlen) hv, hvlen, fun i hi => ?_, ?_⟩
  · rw [hvread i (by omega), List.getElem?_eq_getElem]
  · simp [hblocks, hpending, hcounter, hoffset, hopen, hr.1, -submit_len]

/-- Submitting one byte is one `Absorb`. -/
theorem submit_singleton (e : Engine) (x : EngineState e.nw) (b : Byte) :
    submit e x [b] = absorb e { x with len := x.len + 8 } b := rfl

/-- Settles O30: one `Absorb`, below a full block or at one. -/
theorem addiSubmitsByte : Obligations.AddiSubmitsByte := by
  intro s e b hr hopen hlen
  have hcounter := submit_len_toNat (x := s.engine e) (v := [b]) hlen
  have hoffset := submit_off hr.2 [b]
  have hsubmit := submit_singleton e (s.engine e) b
  refine ⟨_, exec_addi hr (bodyCode_addi_eq_zero_iff.2 ⟨hopen, hlen⟩), ?_, fun hbelow => ?_, fun hfull => ?_, ?_⟩
  · rw [answered_engine, State.engine_setEngine, hcounter]
    rfl
  · obtain ⟨hh, hpending⟩ := absorb_below (x := { s.engine e with len := (s.engine e).len + 8 }) hbelow b
    rw [answered_engine, State.engine_setEngine]
    refine ⟨?_, hsubmit ▸ hh, hsubmit ▸ hpending⟩
    rw [hoffset, List.length_singleton]
    omega
  · obtain ⟨hh, -⟩ := absorb_full (x := { s.engine e with len := (s.engine e).len + 8 }) hfull b
    rw [answered_engine, State.engine_setEngine]
    refine ⟨BitVec.eq_of_toNat_eq ?_, hsubmit ▸ hh⟩
    rw [hoffset, hfull, List.length_singleton]
    rfl
  · simp [hopen, hr.1]

/-- A read stops at the first byte nothing has written. -/
theorem readBytes_of_unwritten {m : List Host.Cell} {a n k : Nat} (hk : k < n)
    (hwritten : ∀ i, i < k → (Memory.read m (a + i)).isSome = true) (hnone : Memory.read m (a + k) = none) :
    Memory.readBytes m a n = .error (a + k) := by
  cases hread : Memory.readBytes m a n with
  | ok v =>
    obtain ⟨hlen, hv⟩ := Memory.readBytes_ok hread
    cases hnone.symm.trans (hv k (by omega))
  | error x =>
    obtain ⟨hlo, -, hx, hbefore⟩ := Memory.readBytes_error hread
    rcases Nat.lt_trichotomy x (a + k) with h | rfl | h
    · have hsome := hwritten (x - a) (by omega)
      rw [Nat.add_sub_cancel' hlo, hx] at hsome
      cases hsome
    · rfl
    · have hsome := hbefore (a + k) (Nat.le_add_right a k) h
      rw [hnone] at hsome
      cases hsome

/-- Settles O31: `readBytes_of_unwritten`, where `exec_of_unwritten` stops. -/
theorem addFaultsOnUnwrittenByte : Obligations.AddFaultsOnUnwrittenByte := by
  intro s e off len k hr hopen hin hlen hk hwritten hnone
  exact exec_of_unwritten hr (bodyCode_add_eq_zero hopen hin hlen) (readBytes_of_unwritten hk hwritten hnone)

/-! ### `ADDI` is an `ADD` of one byte (R83) -/

/-- An `ADD` of one byte that exists makes the checks of an `ADDI`. -/
theorem bodyCode_add_one {e : Engine} {p : BitVec 24} {s : State} (x : Byte) (hp : p.toNat < s.memBytes) :
    bodyCode (.add e p 1) s = bodyCode (.addi e x) s := by
  have hin : ¬ s.memBytes < p.toNat + (1 : BitVec 24).toNat := Nat.not_lt.2 hp
  simp only [bodyCode, if_neg hin]
  rfl

theorem readBytes_one {m : List Host.Cell} {a : Nat} {x : Byte} (h : Memory.read m a = some x) :
    Memory.readBytes m a 1 = .ok [x] := by
  rw [Memory.readBytes, h]
  rfl

@[simp] theorem answered_e128 (s : State) (c : BitVec 4) (v : BitVec 64) : (answered s c v).e128 = s.e128 := rfl

@[simp] theorem answered_e256 (s : State) (c : BitVec 4) (v : BitVec 64) : (answered s c v).e256 = s.e256 := rfl

/-- Settles O32: the two commands make the same checks of the frame and of the body, and then submit the same byte. -/
theorem addiActsAsAddOfOneByte : Obligations.AddiActsAsAddOfOneByte := by
  intro s e x p hp hx
  have hbody := bodyCode_add_one (e := e) x hp
  cases exec_cases (.addi e x) s with
  | faulted _ h he =>
    have hadd := exec_of_faulted (i := .add e p 1) rfl h
    exact ⟨_, _, 6, encode (.addi e x), encode (.add e p 1), he, hadd, by simp⟩
  | badOffset _ h ho he =>
    have hadd := exec_of_badOffset (i := .add e p 1) rfl h ho
    exact ⟨_, _, 2, encode (.addi e x), encode (.add e p 1), he, hadd, by simp⟩
  | illegal hw => cases hw
  | bodyError _ _ hr hc he =>
    have hadd := exec_of_bodyCode_ne_zero (i := .add e p 1) rfl hr (by rwa [hbody])
    rw [hbody] at hadd
    exact ⟨_, _, bodyCode (.addi e x) s, encode (.addi e x), encode (.add e p 1), he, hadd, by simp⟩
  | success _ hr hc =>
    have haddi := exec_addi (hr rfl) hc
    have hadd := exec_add (len := 1) (hr rfl) (hbody.trans hc) (readBytes_one hx)
    exact ⟨_, _, 0, 0, 0, haddi, hadd, by simp⟩
  | unwritten _ _ _ _ hi => cases hi

/-! ### The frame of a submission -/

/-- A submission that succeeds changes only its engine, and there neither the flags nor the digest. -/
theorem Effect.submission_frame {i : Instr} {s : State} {x : EngineState i.engine.nw} {m : List Host.Cell}
    {v : BitVec 64} {off len : BitVec 24} {b : Byte} (h : Effect i s x m v)
    (hi : i = .add i.engine off len ∨ i = .addi i.engine b) :
    x.closed = (s.engine i.engine).closed ∧ x.digest = (s.engine i.engine).digest ∧ m = s.mem := by
  cases i with
  | add =>
    obtain ⟨⟨bs, -, rfl⟩, rfl, -⟩ := h
    exact ⟨submit_closed _ bs, submit_digest _ bs, rfl⟩
  | addi =>
    obtain ⟨rfl, rfl, -⟩ := h
    exact ⟨submit_closed _ _, submit_digest _ _, rfl⟩
  | init | fin | getb | geth | rdsr => simp at hi

/-- A command changes the latch of its engine only where the entry check finds a bad offset (R141 (a)). -/
theorem exec_fault {i : Instr} {s t : State} (ht : exec i s = .next t) (ho : (s.engine i.engine).off.toNat ≤ 63) :
    (t.engine i.engine).fault = (s.engine i.engine).fault := by
  rcases exec_answers ht with ⟨c, -, rfl⟩ | ⟨-, hoff, -⟩ | ⟨-, -, x, m, v, heff, rfl⟩
  · rw [answered_engine]
  · exact absurd ho (by omega)
  · rw [succeeded_engine, heff.fault_eq]

/-- A command leaves the host's list alone. -/
theorem exec_inputs {i : Instr} {s t : State} (ht : exec i s = .next t) : t.inputs = s.inputs := by
  rcases exec_answers ht with ⟨c, -, rfl⟩ | ⟨-, -, rfl⟩ | ⟨-, -, x, m, v, -, rfl⟩ <;> simp

theorem exec_one_response {i : Instr} {s t : State} (ht : exec i s = .next t) :
    ∃ r, t.outputs = .response r :: s.outputs := by
  obtain ⟨v, hv⟩ := exec_outputs_firstCode ht
  exact ⟨_, hv⟩

/-- Settles O33: an error changes at most the latch, a success what `Effect.submission_frame` allows. -/
theorem submissionFrame : Obligations.SubmissionFrame := by
  intro s t e i off len b hi ht
  have he : i.engine = e := by rcases hi with rfl | rfl <;> rfl
  subst he
  have hengine : (t.engine i.engine).closed = (s.engine i.engine).closed ∧
      (t.engine i.engine).digest = (s.engine i.engine).digest ∧ t.mem = s.mem := by
    rcases exec_answers ht with ⟨c, -, rfl⟩ | ⟨-, -, rfl⟩ | ⟨-, -, x, m, v, heff, rfl⟩
    · simp
    · simp
    · simpa using heff.submission_frame hi
  obtain ⟨hclosed, hdigest, hmem⟩ := hengine
  exact ⟨hclosed, hdigest, exec_fault ht, exec_engine_other ht, hmem, exec_memBytes ht, exec_inputs ht,
    exec_one_response ht⟩

/-! ### Pieces of a message (R81, R85) -/

/-- `Absorb` neither reads nor writes the counter. -/
theorem absorbAll_setLen {e : Engine} (x : EngineState e.nw) (l : BitVec 64) (v : List Byte) :
    absorbAll e { x with len := l } v = { absorbAll e x v with len := l } := by
  induction v generalizing x with
  | nil => rfl
  | cons b v ih =>
    have hstep : absorb e { x with len := l } b = { absorb e x b with len := l } := by
      simp only [absorb]
      split <;> rfl
    rw [absorbAll_cons, absorbAll_cons, hstep, ih]

/-- Two submissions are one submission of their bytes. -/
theorem submit_submit {e : Engine} (x : EngineState e.nw) (v w : List Byte) :
    submit e (submit e x v) w = submit e x (v ++ w) := by
  have hlen : x.len + BitVec.ofNat 64 (8 * v.length) + BitVec.ofNat 64 (8 * w.length) =
      x.len + BitVec.ofNat 64 (8 * (v ++ w).length) := by
    rw [BitVec.add_assoc, ← BitVec.ofNat_add, ← Nat.mul_add, List.length_append]
  simp only [submit, absorbAll_setLen, absorbAll_append, hlen]

/-- Settles O36: the two reads are one read, and the two submissions one submission. -/
theorem chunkingInvariance : Obligations.ChunkingInvariance := by
  intro s e off n k hr hopen hnk hon hin hlen hwritten
  have hnk' : (n + k).toNat = n.toNat + k.toNat := by rw [BitVec.toNat_add, Nat.mod_eq_of_lt hnk]
  have hon' : (off + n).toNat = off.toNat + n.toNat := by rw [BitVec.toNat_add, Nat.mod_eq_of_lt hon]
  obtain ⟨v, hv⟩ := Memory.readBytes_of_written (n := n.toNat) fun i hi => hwritten i (by omega)
  obtain ⟨w, hw⟩ := Memory.readBytes_of_written (a := off.toNat + n.toNat) (n := k.toNat) fun i hi => by
    rw [Nat.add_assoc]
    exact hwritten (n.toNat + i) (by omega)
  have hvw := Memory.readBytes_append hv hw
  have hvlen := (Memory.readBytes_ok hv).1
  have hcounter := submit_len_toNat (x := s.engine e) (v := v) (by omega)
  have hoffset := submit_off hr.2 v
  have hwhole := exec_add (off := off) (len := n + k) (bs := v ++ w) hr
    (bodyCode_add_eq_zero hopen (by omega) (by omega)) (by rwa [hnk'])
  have hfirst := exec_add (off := off) (len := n) hr (bodyCode_add_eq_zero hopen (by omega) (by omega)) hv
  have hsecond := exec_add (e := e) (off := off + n) (len := k) (bs := w)
    (s := answered (s.setEngine e (submit e (s.engine e) v)) 0 0)
    ⟨by simp [hr.1], by rw [answered_engine, State.engine_setEngine]; omega⟩
    (bodyCode_add_eq_zero (by simp [hopen]) (by simp only [answered_memBytes, State.memBytes_setEngine]; omega)
      (by rw [answered_engine, State.engine_setEngine]; omega))
    (by rwa [hon', answered_mem, State.mem_setEngine])
  refine ⟨_, _, _, hwhole, hfirst, hsecond, ?_⟩
  simp only [answered_engine, State.engine_setEngine, submit_submit]

/-- The buffer with the bytes of `v` copied in from place `o` on (R81). -/
def patched (buf : Block) (o : Nat) (v : List Byte) : Block :=
  Vector.ofFn fun i : Fin 64 => if o ≤ i.val ∧ i.val < o + v.length then v.getD (i.val - o) 0 else buf[i]

theorem copyChunk_eq {e : Engine} (x : EngineState e.nw) (v : List Byte) : copyChunk e x v =
    if x.off.toNat + v.length = 64 then
      { x with buf := patched x.buf x.off.toNat v, h := compress e x.h (patched x.buf x.off.toNat v), off := 0 }
    else { x with buf := patched x.buf x.off.toNat v, off := x.off + BitVec.ofNat 7 v.length } := rfl

theorem patched_nil (buf : Block) (o : Nat) : patched buf o [] = buf := by
  ext i hi
  simp [patched, show ¬ (o ≤ i ∧ i < o) by omega]

/-- Copying a list is copying its first byte and then the others. -/
theorem patched_cons (buf : Block) (o : Nat) (b : Byte) (v : List Byte) :
    patched buf o (b :: v) = patched (buf.setIfInBounds o b) (o + 1) v := by
  ext1 i hi
  simp only [patched, Vector.getElem_ofFn, Fin.getElem_fin, Vector.getElem_setIfInBounds, List.length_cons]
  rcases Nat.lt_trichotomy i o with h | rfl | h
  · rw [if_neg (by omega), if_neg (by omega), if_neg (by omega)]
  · simp
  · rw [show i - o = (i - (o + 1)) + 1 by omega, List.getD_cons_succ, if_neg (c := o = i) (by omega)]
    exact if_congr (by omega) rfl rfl

theorem copyChunk_nil {e : Engine} {x : EngineState e.nw} (ho : x.off.toNat ≤ 63) : copyChunk e x [] = x := by
  rw [copyChunk_eq, if_neg (by simp; omega), patched_nil]
  simp

/-- The byte that fills the buffer. -/
theorem copyChunk_last {e : Engine} {x : EngineState e.nw} (ho : x.off.toNat = 63) (b : Byte) :
    copyChunk e x [b] = absorb e x b := by
  rw [copyChunk_eq, if_pos (by simp [ho]), patched_cons, patched_nil, absorb, if_pos ((off_succ_eq_64 _).2 ho)]

/-- A byte that does not fill the buffer. -/
theorem copyChunk_cons {e : Engine} {x : EngineState e.nw} (ho : x.off.toNat ≤ 62) (b : Byte) (v : List Byte) :
    copyChunk e x (b :: v) = copyChunk e (absorb e x b) v := by
  have hne : ¬ x.off + 1 = 64 := fun h => by have := (off_succ_eq_64 _).1 h; omega
  have hstep : absorb e x b = { x with buf := x.buf.setIfInBounds x.off.toNat b, off := x.off + 1 } := if_neg hne
  have hoff : (x.off + 1).toNat = x.off.toNat + 1 := by
    rw [BitVec.toNat_add_of_lt] <;> simp; omega
  have hcount : x.off + 1 + BitVec.ofNat 7 v.length = x.off + BitVec.ofNat 7 (v.length + 1) := by
    rw [BitVec.add_assoc, Nat.add_comm, BitVec.ofNat_add]
    rfl
  rw [hstep, copyChunk_eq, copyChunk_eq, hoff, patched_cons, hcount, List.length_cons,
    Nat.add_right_comm, Nat.add_assoc x.off.toNat]

/-- Settles O35: by induction on the chunk; only its last byte can fill the buffer. -/
theorem chunkCopyIsAbsorb : Obligations.ChunkCopyIsAbsorb := by
  intro e x v ho hv
  induction v generalizing x with
  | nil => exact copyChunk_nil ho
  | cons b v ih =>
    rw [List.length_cons] at hv
    rw [absorbAll_cons]
    rcases Nat.lt_or_ge x.off.toNat 63 with h | h
    · have hstep := absorb_off (x := x) ho b
      rw [copyChunk_cons (by omega), ih (absorb e x b) (by omega) (by omega)]
    · obtain rfl : v = [] := List.length_eq_zero_iff.1 (by omega)
      exact copyChunk_last (by omega) b

/-! ### `NOP` (R55) -/

theorem issueAll_singleton {i : Instr} {s t : State} (h : exec i s = .next t) : issueAll [i] s = .next t := by
  rw [issueAll, h]
  exact ite_self _

theorem submit_nil {e : Engine} (x : EngineState e.nw) : submit e x [] = x := by simp [submit]

/-- Settles O60: an `ADD` of no bytes passes every check but that for a closed engine, and submits nothing. -/
theorem nopChangesNothing : Obligations.NopChangesNothing := by
  intro s e hr
  refine ⟨_, rfl, fun hopen => issueAll_singleton ?_, fun hclosed => issueAll_singleton ?_⟩
  · have hlen := (s.engine e).len.isLt
    have hadd := exec_add (off := 0) (len := 0) hr (bodyCode_add_eq_zero hopen (Nat.zero_le _) (by simp; omega)) rfl
    rwa [submit_nil, State.setEngine_engine] at hadd
  · have hcode : bodyCode (.add e 0 0) s = 1 := if_pos hclosed
    rw [exec_of_bodyCode_ne_zero (i := .add e 0 0) rfl hr (by rw [hcode]; decide), hcode]

end Sys2Proof.Machine
end

section
/-! The rotates and the shift as arithmetic (00_scope.md R8). -/

namespace Sys2Proof.Machine

theorem rotl32_toNat (x : Word) (n : Nat) :
    (rotl32 x n).toNat = x.toNat * 2 ^ n % 2 ^ 32 ||| x.toNat / 2 ^ (32 - n) := by
  rw [rotl32, BitVec.toNat_or, BitVec.toNat_shiftLeft, BitVec.toNat_ushiftRight, Nat.shiftLeft_eq,
    Nat.shiftRight_eq_div_pow]

/-- A left rotation is the right rotation by the rest of the word (R8). -/
theorem rotl32_eq_rotr32 (x : Word) {n : Nat} (hn : n ≤ 32) : rotl32 x n = rotr32 x (32 - n) := by
  rw [rotr32, Nat.sub_sub_self hn]

/-- Settles O40: the formulas are those of the shifts, and the bits of a left rotation those of a right one. -/
theorem rotateFormulas : Obligations.RotateFormulas := by
  refine fun x n h0 hn => ⟨rotl32_toNat x n, rfl, ?_, fun i hi => ?_⟩
  · rw [shr32, BitVec.toNat_ushiftRight, Nat.shiftRight_eq_div_pow]
  · have hback : ((i + n) % 32 + (32 - n)) % 32 = i := by omega
    rw [rotl32_eq_rotr32 x hn.le, rotr32_getLsbD x (by omega) (by omega) (Nat.mod_lt _ (by decide)), hback]

end Sys2Proof.Machine
end

section
/-! The finalizing commands `FIN`, `GETB` and `GETH` (46_digest_serializer.md): the tail by the offset
(41_padding_engine.md R74), what each command leaves, and the closed engine, which is read-only (R127). -/

namespace Sys2Proof.Machine

/-! ### The tail and its blocks (R74) -/

theorem tail_eq (e : Engine) (off : BitVec 7) (L : BitVec 64) :
    tail e off L = 0x80 :: (List.replicate (tailLength off - 9) 0 ++ lenField e L) := rfl

/-- The last bytes of the message and the tail make up one block or two. -/
theorem absorbTail_h {e : Engine} {x : EngineState e.nw} (h : x.off.toNat ≤ 63) : (absorbTail e x).h =
    foldBlocks e x.h (if x.off.toNat ≤ 55 then 1 else 2) (pendingBytes x ++ tail e x.off x.len) := by
  have hblocks : (x.off.toNat + tailLength x.off) / 64 = if x.off.toNat ≤ 55 then 1 else 2 := by
    rcases tailLength_cases h with ⟨hle, hT⟩ | ⟨hge, hT⟩
    · rw [hT, if_pos hle]
      omega
    · rw [hT, if_neg (by omega)]
      omega
  rw [absorbTail, (absorbAll_blocks h _).1, tail_length e h, hblocks]

/-- Settles O39: the two lengths of `tailLength_cases`, and the blocks of `absorbTail_h`. -/
theorem tailByOffset : Obligations.TailByOffset := by
  intro e x h
  have hblocks := absorbTail_h h
  refine ⟨fun hle => ?_, fun hge => ?_, absorbTail_off h⟩
  · have hT : tailLength x.off = 64 - x.off.toNat := by have := tailLength_cases h; omega
    have hzeros : tailLength x.off - 9 = 55 - x.off.toNat := by omega
    rw [if_pos hle] at hblocks
    exact ⟨(tail_length e h _).trans hT, by rw [tail_eq, hzeros], hblocks⟩
  · have hT : tailLength x.off = 128 - x.off.toNat := by have := tailLength_cases h; omega
    have hzeros : tailLength x.off - 9 = 119 - x.off.toNat := by omega
    rw [if_neg (by omega)] at hblocks
    exact ⟨(tail_length e h _).trans hT, by rw [tail_eq, hzeros], hblocks⟩

/-! ### What the finalizing commands answer on a ready engine -/

theorem exec_fin {e : Engine} {s : State} (hr : Ready s e) :
    exec (.fin e) s = .next (answered (s.setEngine e (finalized e (s.engine e))) 0 0) := by
  rw [exec_of_effect (i := .fin e) (fun _ => hr) rfl rfl ⟨rfl, rfl, rfl⟩, succeeded_same_mem]

theorem exec_getb {e : Engine} {dst : BitVec 24} {s : State} (hr : Ready s e)
    (hin : dst.toNat + 4 * e.nw ≤ s.memBytes) : exec (.getb e dst) s = .next (succeeded s e (finalized e (s.engine e))
      (Memory.writeBytes s.mem dst.toNat (finalized e (s.engine e)).digest.toList) 0) :=
  exec_of_effect (i := .getb e dst) (fun _ => hr) rfl (bodyCode_getb_eq_zero_iff.2 hin) ⟨rfl, rfl, rfl⟩

theorem exec_geth {e : Engine} {dst : BitVec 24} {s : State} (hr : Ready s e)
    (hin : dst.toNat + 2 * (4 * e.nw) ≤ s.memBytes) :
    exec (.geth e dst) s = .next (succeeded s e (finalized e (s.engine e))
      (Memory.writeBytes s.mem dst.toNat (hex (finalized e (s.engine e)).digest.toList)) 0) :=
  exec_of_effect (i := .geth e dst) (fun _ => hr) rfl (bodyCode_geth_eq_zero_iff.2 hin) ⟨rfl, rfl, rfl⟩

theorem finalized_off_le {e : Engine} {x : EngineState e.nw} (h : x.off.toNat ≤ 63) :
    (finalized e x).off.toNat ≤ 63 := by
  cases hclosed : x.closed with
  | true => rwa [finalized_of_closed hclosed]
  | false =>
    rw [finalized_of_open hclosed, closeEngine_off, absorbTail_off h]
    decide

/-- A second `Finalize` does nothing. -/
theorem finalized_finalized (e : Engine) (x : EngineState e.nw) : finalized e (finalized e x) = finalized e x :=
  finalized_of_closed (finalized_closed e x)

/-- Settles O51: `exec_fin`, with what `Finalize` leaves of an open engine and of a closed one. -/
theorem finClosesEngine : Obligations.FinClosesEngine := by
  refine fun s e hr => ⟨fun hopen => ⟨_, exec_fin hr, ?_⟩, fun hclosed => ?_⟩
  · rw [finalized_of_open hopen]
    simp [absorbTail_off hr.2, absorbTail_h hr.2, hr.1]
  · rw [exec_fin hr, finalized_of_closed hclosed, State.setEngine_engine]

/-! ### The bytes `GETB` and `GETH` write (R125, R126) -/

theorem read_writeBytes_getElem? (m : List Host.Cell) (a : Nat) (v : List Byte) {i : Nat} (hi : i < v.length) :
    Memory.read (Memory.writeBytes m a v) (a + i) = v[i]? := by
  rw [Memory.read_writeBytes_inside m a v hi, List.getElem?_eq_getElem hi]

/-- The bytes a `GETB` that answers has written are those of the digest `Finalize` leaves. -/
theorem read_of_exec_getb {e : Engine} {dst : BitVec 24} {s t : State} (hr : Ready s e)
    (hin : dst.toNat + 4 * e.nw ≤ s.memBytes) (ht : exec (.getb e dst) s = .next t) :
    t.engine e = finalized e (s.engine e) ∧ ∀ i, i < 4 * e.nw →
      Memory.read t.mem (dst.toNat + i) = (finalized e (s.engine e)).digest.toList[i]? := by
  cases ht.symm.trans (exec_getb hr hin)
  refine ⟨succeeded_engine .., fun i hi => ?_⟩
  rw [succeeded_mem, read_writeBytes_getElem? _ _ _ (by rwa [Vector.length_toList])]

/-- Settles O52: `exec_getb`, with the bytes inside (`read_of_exec_getb`) and outside the run it writes. -/
theorem getbWritesDigest : Obligations.GetbWritesDigest := by
  intro s e dst hr hin
  refine ⟨_, _, exec_getb hr hin, exec_fin hr, by simp, fun i hi => ?_, fun a ha => ?_, by simp⟩
  · obtain ⟨hengine, hread⟩ := read_of_exec_getb hr hin (exec_getb hr hin)
    rw [hread i hi, hengine]
  · rw [succeeded_mem, Memory.read_writeBytes_outside _ _ _ (by rwa [Vector.length_toList])]

/-- The two characters of a byte of the digest, at their places in `MEM`. -/
theorem read_writeBytes_hex (m : List Host.Cell) (a : Nat) {n : Nat} (d : Vector Byte n) (i : Fin n) {j : Nat}
    (hj : j < 2) : Memory.read (Memory.writeBytes m a (hex d.toList)) (a + (2 * i.val + j)) =
      some ((hexByte d[i]).getD j 0) := by
  have hi : i.val < d.toList.length := by rw [Vector.length_toList]; exact i.isLt
  have hchar : 2 * i.val + j < (hex d.toList).length := by rw [hex_length]; omega
  rw [Memory.read_writeBytes_inside m a _ hchar, ← List.getD_eq_getElem _ 0 hchar, hex_getD _ hi hj,
    getD_toList d 0 i.isLt]
  rfl

/-- Settles O53: `exec_geth`, with the characters inside and the bytes outside the run it writes. -/
theorem gethWritesHex : Obligations.GethWritesHex := by
  intro s e dst hr hin
  refine ⟨_, _, exec_geth hr hin, exec_fin hr, by simp, fun i => ⟨?_, ?_⟩, fun a ha => ?_, by simp⟩
  · rw [succeeded_mem, succeeded_engine]
    exact read_writeBytes_hex s.mem dst.toNat _ i Nat.two_pos
  · rw [succeeded_mem, succeeded_engine]
    exact read_writeBytes_hex s.mem dst.toNat _ i Nat.one_lt_two
  · rw [succeeded_mem, Memory.read_writeBytes_outside _ _ _ (by rwa [hex_length, Vector.length_toList])]

/-! ### The frame of the finalizing commands -/

/-- A command that succeeds changes no byte of `MEM` outside its destination. -/
theorem Effect.read_outside {i : Instr} {s : State} {x : EngineState i.engine.nw} {m : List Host.Cell}
    {v : BitVec 64} (h : Effect i s x m v) {a : Nat}
    (ha : a < (destination i).1 ∨ (destination i).1 + (destination i).2 ≤ a) :
    Memory.read m a = Memory.read s.mem a := by
  cases i with
  | init | add | addi | fin | rdsr => rw [h.2.1]
  | getb => rw [h.2.1, Memory.read_writeBytes_outside _ _ _ (by rwa [Vector.length_toList])]
  | geth => rw [h.2.1, Memory.read_writeBytes_outside _ _ _ (by rwa [hex_length, Vector.length_toList])]

/-- A command changes no byte of `MEM` outside its destination. -/
theorem exec_read_outside {i : Instr} {s t : State} (ht : exec i s = .next t) {a : Nat}
    (ha : a < (destination i).1 ∨ (destination i).1 + (destination i).2 ≤ a) :
    Memory.read t.mem a = Memory.read s.mem a := by
  rcases exec_answers ht with ⟨c, -, rfl⟩ | ⟨-, -, rfl⟩ | ⟨-, -, x, m, v, heff, rfl⟩
  · rw [answered_mem]
  · rw [answered_mem, State.mem_setEngine]
  · rw [succeeded_mem, heff.read_outside ha]

theorem exec_fin_mem {e : Engine} {s t : State} (ht : exec (.fin e) s = .next t) : t.mem = s.mem := by
  rcases exec_answers ht with ⟨c, -, rfl⟩ | ⟨-, -, rfl⟩ | ⟨-, -, x, m, v, ⟨-, rfl, -⟩, rfl⟩ <;> simp

/-- Settles O54: the frames every command has, and the destination of each finalizing command. -/
theorem finalizingFrame : Obligations.FinalizingFrame := by
  intro s t e i dst hi ht
  have hlen := counterCountsInput.2.2 s t e i dst hi ht
  have he : i.engine = e := by rcases hi with rfl | rfl | rfl <;> rfl
  subst he
  refine ⟨hlen, exec_fault ht, exec_engine_other ht, exec_memBytes ht, exec_inputs ht, fun h => ?_, fun h a ha => ?_,
    fun h a ha => ?_, exec_one_response ht⟩
  · rw [h] at ht
    exact exec_fin_mem ht
  · refine exec_read_outside ht ?_
    rw [h]
    exact ha
  · refine exec_read_outside ht ?_
    rw [h]
    exact ha

/-! ### A closed engine (R127) -/

/-- On a closed engine a command other than `INIT` that succeeds has no effect on the engine. -/
theorem Effect.eq_of_closed {i : Instr} {s : State} {x : EngineState i.engine.nw} {m : List Host.Cell} {v : BitVec 64}
    (h : Effect i s x m v) (hc : bodyCode i s = 0) (hclosed : (s.engine i.engine).closed = true)
    (hi : i ≠ .init i.engine) : x = s.engine i.engine := by
  cases i with
  | init => exact absurd rfl hi
  | add =>
    obtain ⟨hopen, -⟩ := bodyCode_add_eq_zero_iff.1 hc
    exact absurd (hopen.symm.trans hclosed) Bool.false_ne_true
  | addi =>
    obtain ⟨hopen, -⟩ := bodyCode_addi_eq_zero_iff.1 hc
    exact absurd (hopen.symm.trans hclosed) Bool.false_ne_true
  | fin | getb | geth => exact h.1.trans (finalized_of_closed hclosed)
  | rdsr => exact h.1

/-- A ready closed engine keeps its state through every command but its `INIT`. -/
theorem exec_engine_of_closed {i : Instr} {s t : State} {e : Engine} (hr : Ready s e)
    (hclosed : (s.engine e).closed = true) (hi : i ≠ .init e) (ht : exec i s = .next t) :
    t.engine e = s.engine e := by
  rcases Engine.eq_or_eq_other i.engine e with rfl | rfl
  · rcases exec_answers ht with ⟨c, -, rfl⟩ | ⟨-, hoff, -⟩ | ⟨hc, -, x, m, v, heff, rfl⟩
    · rw [answered_engine]
    · exact absurd hr.2 (by omega)
    · rw [succeeded_engine]
      exact heff.eq_of_closed hc hclosed hi
  · exact exec_engine_other ht

/-- Settles O55: `exec_engine_of_closed`; and the second `GETB` finds the engine as the first left it, closed. -/
theorem closedEngineIsReadOnly : Obligations.ClosedEngineIsReadOnly := by
  refine ⟨fun s t e i => exec_engine_of_closed, fun s t u e d1 d2 hr hin1 hin2 ht hu i hi => ?_⟩
  obtain ⟨hengine, hread1⟩ := read_of_exec_getb hr hin1 ht
  have hready : Ready t e := by
    rw [Ready, hengine, finalized_fault]
    exact ⟨hr.1, finalized_off_le hr.2⟩
  have hin2' : d2.toNat + 4 * e.nw ≤ t.memBytes := by rwa [exec_memBytes ht]
  obtain ⟨-, hread2⟩ := read_of_exec_getb hready hin2' hu
  rw [hread2 i hi, hread1 i hi, hengine, finalized_finalized]

end Sys2Proof.Machine
end

section
/-! The message an engine holds (10_state.md R21) and its digest in one shot (41_padding_engine.md R75,
46_digest_serializer.md R128): a submission appends to the message, and the tail completes it to the padded one. -/

namespace Sys2Proof

open Sys2Proof.Machine

/-! ### Folds over blocks (R75) -/

/-- A fold over `n + k` blocks is one over the first `n` and then one over the `k` after them. -/
theorem foldBlocks_add (e : Engine) (S : Vector Word e.nw) (n k : Nat) (l : List Byte) :
    foldBlocks e S (n + k) l = foldBlocks e (foldBlocks e S n l) k (l.drop (64 * n)) := by
  induction n generalizing S l with
  | zero => simp only [Nat.zero_add, Nat.mul_zero, List.drop_zero, foldBlocks]
  | succ n ih =>
    rewrite [Nat.succ_add_eq_add_succ, Nat.add_succ, foldBlocks, ih, List.drop_drop, foldBlocks, Nat.mul_succ,
      Nat.add_comm 64]
    exact rfl

/-- A fold over whole blocks does not see what comes after them. -/
theorem foldBlocks_append (e : Engine) (S : Vector Word e.nw) {n : Nat} {l : List Byte} (r : List Byte)
    (h : 64 * n ≤ l.length) : foldBlocks e S n (l ++ r) = foldBlocks e S n l := by
  induction n generalizing S l with
  | zero => simp only [foldBlocks]
  | succ n ih =>
    have hdrop : 64 * n ≤ (l.drop 64).length := by
      rw [List.length_drop]
      omega
    simp only [foldBlocks]
    rewrite [toBlock_append r (by omega), List.drop_append_of_le_length (by omega), ih _ hdrop]
    exact rfl

/-! ### The message an engine holds (R21) -/

/-- R21's clause on `BUF[0 .. OFF − 1]`, as a list: the bytes after the last whole block are pending. -/
theorem pendingBytes_eq_drop_iff {nw : Nat} {x : EngineState nw} {m : List Byte} (ho : x.off.toNat = m.length % 64) :
    pendingBytes x = m.drop (64 * (m.length / 64)) ↔
      ∀ i, i < m.length % 64 → x.buf[i]? = m[64 * (m.length / 64) + i]? := by
  have hbuf (i : Nat) (hi : i < m.length % 64) : (pendingBytes x)[i]? = x.buf[i]? := by
    rw [pendingBytes, List.getElem?_take_of_lt (by omega), Vector.getElem?_toList]
  constructor
  · intro h i hi
    rw [← hbuf i hi, h, List.getElem?_drop]
  · intro h
    have hlen := pendingBytes_length (x := x) (by omega)
    apply List.ext_getElem?
    intro i
    rw [List.getElem?_drop]
    rcases Nat.lt_or_ge i (m.length % 64) with hi | hi
    · rw [hbuf i hi, h i hi]
    · rw [List.getElem?_eq_none (by omega), List.getElem?_eq_none (by omega)]

variable {e : Engine} {m : List Byte} {x : EngineState e.nw}

theorem Holds.offset_le (h : Holds e m x) : x.off.toNat ≤ 63 := by
  have := h.offset
  omega

theorem Holds.pendingBytes_eq (h : Holds e m x) : pendingBytes x = m.drop (64 * (m.length / 64)) :=
  (pendingBytes_eq_drop_iff h.offset).2 h.pending

/-- Going on from the words and the pending bytes is folding over the longer message from the start. -/
theorem Holds.foldBlocks_pending (h : Holds e m x) (v : List Byte) :
    foldBlocks e x.h ((x.off.toNat + v.length) / 64) (pendingBytes x ++ v) =
      foldBlocks e (iv e) ((m ++ v).length / 64) (m ++ v) := by
  have hwhole : 64 * (m.length / 64) ≤ m.length := Nat.mul_div_le ..
  have hcount : (m ++ v).length / 64 = m.length / 64 + (x.off.toNat + v.length) / 64 := by
    rw [List.length_append, h.offset]
    omega
  rewrite [hcount, foldBlocks_add, foldBlocks_append e _ v hwhole, List.drop_append_of_le_length hwhole,
    h.pendingBytes_eq, h.words]
  exact rfl

/-- An engine just initialised holds the empty message (R62). -/
theorem holds_nil (hfault : x.fault = false) (hopen : x.closed = false) (hlen : x.len = 0) (hoff : x.off = 0)
    (hh : x.h = iv e) : Holds e [] x :=
  ⟨hfault, hopen, by rw [hlen]; rfl, by rw [hoff]; rfl, hh, nofun⟩

/-- An engine that accepts bytes holds the message with them appended. -/
theorem Holds.submit (h : Holds e m x) {v : List Byte} (hlen : x.len.toNat + 8 * v.length ≤ 2 ^ 64 - 1) :
    Holds e (m ++ v) (submit e x v) := by
  obtain ⟨hblocks, hpending⟩ := submit_blocks h.offset_le v
  have hwhole : 64 * (m.length / 64) ≤ m.length := Nat.mul_div_le ..
  have hoff : (Machine.submit e x v).off.toNat = (m ++ v).length % 64 := by
    rw [submit_off h.offset_le, h.offset, List.length_append, Nat.mod_add_mod]
  refine ⟨(submit_fault x v).trans h.notFaulted, (submit_closed x v).trans h.isOpen, ?_, hoff,
    hblocks.trans (h.foldBlocks_pending v), (pendingBytes_eq_drop_iff hoff).1 ?_⟩
  · rw [submit_len_toNat hlen, h.len, List.length_append, Nat.mul_add]
  · have hcount : (m ++ v).length / 64 = m.length / 64 + (x.off.toNat + v.length) / 64 := by
      rw [List.length_append, h.offset]
      omega
    rw [hpending, h.pendingBytes_eq, hcount, Nat.mul_add, ← List.drop_drop, List.drop_append_of_le_length hwhole]

/-! ### The digest of the message (R75, R128) -/

/-- The tail completes the message an engine holds to the padded message. -/
theorem Holds.append_tail (h : Holds e m x) : m ++ tail e x.off x.len = pad e m := by
  have ho := h.offset
  have hzeros : tailLength x.off - 9 = ((55 - (m.length : Int)) % 64).toNat := by
    have := tailLength_cases h.offset_le
    omega
  rw [pad, tail, hzeros, ← h.len, BitVec.ofNat_toNat, BitVec.setWidth_eq]
  simp

/-- `Finalize` caches the digest of the message the engine holds. -/
theorem Holds.finalized_digest (h : Holds e m x) : (finalized e x).digest = digestOf e m := by
  have hwords := (absorbAll_blocks h.offset_le (tail e x.off x.len)).1.trans (h.foldBlocks_pending _)
  rw [h.append_tail] at hwords
  rw [finalized_of_open h.isOpen, closeEngine_digest, absorbTail]
  exact congrArg (serialize e) hwords

end Sys2Proof
end

section
/-! Runs of commands that hash a message: the engine holds what has been accepted (10_state.md R21), and the digest is
the one-shot digest, byte by byte (R128) and for a buffer in `MEM` (30_encoding.md R55). -/

namespace Sys2Proof

open Sys2Proof.Machine

/-! ### Commands that have been accepted -/

theorem Holds.ready {e : Engine} {m : List Byte} {s : State} (h : Holds e m (s.engine e)) : Ready s e :=
  ⟨h.notFaulted, h.offset_le⟩

/-- A command that answers `OK` has had its effect. -/
theorem effect_of_code_zero {i : Instr} {s t : State} {v : BitVec 64} (ht : exec i s = .next t)
    (hout : t.outputs = .response ⟨0, v⟩ :: s.outputs) :
    bodyCode i s = 0 ∧ ∃ x m v, Effect i s x m v ∧ t = succeeded s i.engine x m v := by
  rcases exec_next_cases ht with ⟨c, hc, hout', -⟩ | hsuccess
  · cases hout.symm.trans hout'
    exact absurd rfl hc
  · exact hsuccess

theorem exec_init {e : Engine} {s : State} (hr : Ready s e) :
    exec (.init e) s = .next (answered (s.setEngine e (initEngine e (s.engine e))) 0 0) := by
  rw [exec_of_effect (i := .init e) (fun _ => hr) rfl rfl ⟨rfl, rfl, rfl⟩, succeeded_same_mem]

theorem holds_initEngine {e : Engine} {s : State} (hr : Ready s e) : Holds e [] (initEngine e (s.engine e)) :=
  holds_nil hr.1 rfl rfl rfl rfl

/-- `MemRead` answers the bytes that stand in the range. -/
theorem readBytes_of_read {m : List Host.Cell} {a n : Nat} {bs : List Byte} (hlen : bs.length = n)
    (h : ∀ i, i < n → Memory.read m (a + i) = bs[i]?) : Memory.readBytes m a n = .ok bs := by
  obtain ⟨v, hv⟩ := Memory.readBytes_of_written (m := m) (a := a) (n := n) fun i hi => by
    rw [h i hi, List.getElem?_eq_getElem (by omega)]
    rfl
  obtain ⟨hvlen, hread⟩ := Memory.readBytes_ok hv
  have hvbs : v = bs := List.ext_getElem (by omega) fun i hi hi' => by
    have hsome := (hread i hi).symm.trans (h i (by omega))
    rwa [List.getElem?_eq_getElem hi', Option.some.injEq] at hsome
  rw [hv, hvbs]

/-- Settles O56: `holds_nil` and `Holds.submit`, where the checks of the submission have shut out an overflow. -/
theorem acceptedBytesAreHeld : Obligations.AcceptedBytesAreHeld := by
  refine ⟨fun e => ?_, fun s t e hr ht => ?_, fun s t e m b v h ht hout => ?_,
    fun s t e m bs off len v h hlen hread ht hout => ?_⟩
  · rw [State.engine_reset]
    exact holds_nil rfl rfl rfl rfl rfl
  · cases ht.symm.trans (exec_init hr)
    rw [answered_engine, State.engine_setEngine]
    exact holds_initEngine hr
  · obtain ⟨hc, -⟩ := effect_of_code_zero ht hout
    cases ht.symm.trans (exec_addi h.ready hc)
    rw [answered_engine, State.engine_setEngine]
    exact h.submit (bodyCode_addi_eq_zero_iff.1 hc).2
  · obtain ⟨hc, -⟩ := effect_of_code_zero ht hout
    obtain ⟨-, -, hcounter⟩ := bodyCode_add_eq_zero_iff.1 hc
    cases ht.symm.trans (exec_add h.ready hc (readBytes_of_read hlen hread))
    rw [answered_engine, State.engine_setEngine]
    exact h.submit (by rwa [hlen])

/-- Settles O57: `Holds.finalized_digest`. -/
theorem finalizeGivesMessageDigest : Obligations.FinalizeGivesMessageDigest := by
  intro s t e m h ht
  cases ht.symm.trans (exec_fin h.ready)
  rw [answered_engine, State.engine_setEngine]
  exact ⟨h.finalized_digest, finalized_closed ..⟩

/-! ### A message byte by byte -/

/-- Submitting a message byte by byte always answers while the counter has room, and appends the message. -/
theorem submitBytes_holds {e : Engine} {p m : List Byte} {s : State} (h : Holds e p (s.engine e))
    (hroom : (p ++ m).length < 2 ^ 61) : ∃ u, submitBytes e m s = .next u ∧ Holds e (p ++ m) (u.engine e) := by
  induction m generalizing p s with
  | nil => exact ⟨s, rfl, by rwa [List.append_nil]⟩
  | cons b m ih =>
    rw [List.append_cons] at hroom ⊢
    have hcounter : (s.engine e).len.toNat + 8 ≤ 2 ^ 64 - 1 := by
      rw [h.len]
      simp only [List.length_append, List.length_singleton] at hroom
      omega
    have hexec := exec_addi h.ready (bodyCode_addi_eq_zero_iff (b := b).2 ⟨h.isOpen, hcounter⟩)
    rw [submitBytes, hexec]
    refine ih ?_ hroom
    rw [answered_engine, State.engine_setEngine]
    exact h.submit hcounter

/-- Settles O58: the engine holds the empty message after `INIT`, and the whole message after its bytes. -/
theorem incrementalHashIsOneShotHash : Obligations.IncrementalHashIsOneShotHash := by
  intro s e m hr hm
  have hinit : Holds e [] ((answered (s.setEngine e (initEngine e (s.engine e))) 0 0).engine e) := by
    rw [answered_engine, State.engine_setEngine]
    exact holds_initEngine hr
  obtain ⟨u, hu, hholds⟩ := submitBytes_holds (m := m) hinit hm
  have hfin := exec_fin hholds.ready
  obtain ⟨hdigest, -⟩ := finalizeGivesMessageDigest u _ e m hholds hfin
  exact ⟨_, u, _, exec_init hr, hu, hfin, hdigest⟩

/-! ### A message in `MEM` -/

/-- The host goes on after a response `OK` (R55). -/
theorem issueAll_cons {i : Instr} {is : List Instr} {s t : State} {v : BitVec 64}
    (h : exec i s = .next (answered t 0 v)) : issueAll (i :: is) s = issueAll is (answered t 0 v) := by
  rw [issueAll, h]
  rfl

/-- `INIT` and then `ADD` of a range of `MEM`: the engine then holds the bytes of the range. -/
theorem issueAll_init_add {e : Engine} {off len : BitVec 24} {s : State} {m : List Byte} (is : List Instr)
    (hr : Ready s e) (hin : off.toNat + len.toNat ≤ s.memBytes) (hlen : m.length = len.toNat)
    (hread : ∀ i, i < len.toNat → Memory.read s.mem (off.toNat + i) = m[i]?) :
    ∃ u, issueAll (.init e :: .add e off len :: is) s = issueAll is u ∧ Holds e m (u.engine e) ∧
      u.memBytes = s.memBytes := by
  have hempty := holds_initEngine hr
  have hinit := exec_init hr
  generalize initEngine e (s.engine e) = x at hempty hinit
  have hcounter : x.len.toNat + 8 * m.length ≤ 2 ^ 64 - 1 := by
    have := len.isLt
    rw [hempty.len, List.length_nil]
    omega
  have hholds : Holds e [] ((answered (s.setEngine e x) 0 0).engine e) := by
    rwa [answered_engine, State.engine_setEngine]
  have hcode : bodyCode (.add e off len) (answered (s.setEngine e x) 0 0) = 0 := by
    refine bodyCode_add_eq_zero hholds.isOpen ?_ ?_
    · rwa [answered_memBytes, State.memBytes_setEngine]
    · rwa [answered_engine, State.engine_setEngine, ← hlen]
  have hbytes : Memory.readBytes (answered (s.setEngine e x) 0 0).mem off.toNat len.toNat = .ok m := by
    rw [answered_mem, State.mem_setEngine]
    exact readBytes_of_read hlen hread
  refine ⟨_, by rw [issueAll_cons hinit, issueAll_cons (exec_add hholds.ready hcode hbytes)], ?_, by simp⟩
  rw [answered_engine, State.engine_setEngine, answered_engine, State.engine_setEngine]
  exact hempty.submit hcounter

/-- Settles O59: after `INIT` and `ADD` the engine holds the bytes at `off`, and `GETB` writes their digest. -/
theorem hashbWritesMessageDigest : Obligations.HashbWritesMessageDigest := by
  intro s e off len dst m hr hoff hdst hlen hread
  obtain ⟨u, hu, hholds, hbytes⟩ := issueAll_init_add [.getb e dst] hr hoff hlen hread
  have hin : dst.toNat + 4 * e.nw ≤ u.memBytes := by rwa [hbytes]
  have hgetb := exec_getb hholds.ready hin
  refine ⟨_, _, rfl, hu.trans (issueAll_singleton hgetb), fun i hi => ?_⟩
  obtain ⟨-, hdigest⟩ := read_of_exec_getb hholds.ready hin hgetb
  rw [hdigest i hi, hholds.finalized_digest]

end Sys2Proof
end
